-- ==== Sys2Proof/Word.lean ====
section
/-! DEFINITION. The words on the NSC block's ports (spec/00_scope.md R7, R8, R10; spec/30_encoding.md R42, R43).
Everything here is a bit vector because the spec numbers, slices or compares its bits (R11). -/

namespace Sys2Proof

/-- A nibble, 0..15 (R10). -/
abbrev Nibble := BitVec 4

/-- One symbol code, `SYM_W` = 8 bits (R7). -/
abbrev Symbol := BitVec 8

/-- A `data` or `comp` byte (R10). -/
abbrev Byte := BitVec 8

/-- The command word CMD (R45). -/
abbrev CmdWord := BitVec 8

/-- The `address` of a patch record (R10). -/
abbrev Address := BitVec 16

/-- A numeric operand of the encoder, `OPERAND_W` = 32 bits, two's complement (R8). -/
abbrev Operand := BitVec 32

/-- The eight symbol slots ISYM[0..7] or OSYM[0..7]; slot 0 is the first character (R32, R42, R43). -/
abbrev Symbols := Vector Symbol 8

/-- The eight nibble slots n[0..7], wires between two stages of one operation and no state (R11, R23). -/
abbrev Slots := Vector Nibble 8

/-- The contents of SYM_ROM, which is the parameter ALPHABET[0..15] (R6, R19). -/
abbrev Alphabet := Vector Symbol 16

end Sys2Proof
end

