-- ==== Sys2Proof/Syntax.lean ====
section
/-! DEFINITION. The syntax of the interface (spec/30_encoding.md): the request and the response bundle, the status and
error-field names, the operations with the operands each of them reads, and the lines of the textual request notation. -/

namespace Sys2Proof

/-- A request: one bundle of fields, presented together and accepted whole (R42). -/
structure Request where
  /-- CMD, the command word (R45). -/
  cmd : CmdWord
  /-- NIB_IN, read by SYMFOR. -/
  nibIn : Nibble
  /-- LEN, the number of symbols of the code string, read by DECODE. -/
  len : BitVec 8
  /-- ISYM[0..7], read by DECODE and, slot 0 only, by NIBFOR. -/
  isym : Symbols
  /-- A_IN, the address operand of the encoder. -/
  aIn : Operand
  /-- D_IN, the data operand of the encoder. -/
  dIn : Operand
  /-- C_IN, the comp operand, read by ENCODE8 only. -/
  cIn : Operand
deriving DecidableEq, Repr, Inhabited

/-- The outcomes a response can report (R49). The codes 4, 5 and 6 are never produced, so they have no constructor
(spec/93_implementation_defined.md I8). -/
inductive Status where
  | ok
  | invalidLength
  | invalidSymbol
  | outOfRange
  | illegalOp
deriving DecidableEq, Repr, Inhabited

/-- The numeric fields a range check can name (R50). The code 3 is never produced, so it has no constructor (I8). -/
inductive ErrField where
  | address
  | data
  | comp
deriving DecidableEq, Repr, Inhabited

/-- A response: one bundle of fields, delivered together (R43). -/
structure Response where
  status : Status
  /-- WARN, the non-fatal diagnostic of DECODE. -/
  warn : Bool
  addr : Address
  data : Byte
  comp : Byte
  /-- COMPV: `comp` is present. -/
  compv : Bool
  nib : Nibble
  /-- OLEN, the number of valid output symbols. -/
  olen : BitVec 4
  osym : Symbols
  errIndex : BitVec 3
  errChar : Symbol
  /-- ERR_FIELD as the two bits on the port: a response that reports no range error holds 0 here (R44). -/
  errField : BitVec 2
  errValue : BitVec 32
deriving DecidableEq, Repr, Inhabited

/-- The operations, one constructor per row of spec/opcode_table.json, each with exactly the request fields it reads
(R42, R46, R48). -/
inductive Instr where
  /-- SYMFOR (R59): NIB_IN. -/
  | symfor (nib : Nibble)
  /-- NIBFOR (R60): ISYM[0]. -/
  | nibfor (sym : Symbol)
  /-- DECODE (R61): LEN and ISYM[0..7]. -/
  | decode (len : BitVec 8) (isym : Symbols)
  /-- ENCODE6 (R74, A = 0): A_IN and D_IN. -/
  | encode6 (a d : Operand)
  /-- ENCODE6.ALT (R74, A = 1): A_IN and D_IN. -/
  | encode6Alt (a d : Operand)
  /-- ENCODE8 (R75, A = 0): A_IN, D_IN and C_IN. -/
  | encode8 (a d c : Operand)
  /-- ENCODE8.ALT (R75, A = 1): A_IN, D_IN and C_IN. -/
  | encode8Alt (a d c : Operand)
deriving DecidableEq, Repr

/-- Why a command word is illegal: the three kinds R47 lists. -/
inductive Illegal where
  /-- RSV is not 0. -/
  | reservedBits
  /-- OP is 0b100, 0b101, 0b110 or 0b111. -/
  | unassignedOp
  /-- A = 1 or C = 1 with an OP other than 0b011. -/
  | modifierNotAllowed
deriving DecidableEq, Repr

/-- A request line of the textual notation, with its numbers as written (R54, and the pseudo-instructions of R55). -/
inductive Asm where
  /-- `SYMFOR <nib>` -/
  | symfor (nib : Int)
  /-- `NIBFOR '<ch>'` -/
  | nibforChar (ch : Char)
  /-- `NIBFOR <code>` -/
  | nibforCode (code : Int)
  /-- `DECODE "<s>"` -/
  | decodeString (s : List Char)
  /-- `DECODE LEN=<n>, [<c0>, ..., <c7>]` -/
  | decodeRaw (n : Int) (codes : List Int)
  | encode6 (a d : Int)
  | encode6Alt (a d : Int)
  | encode8 (a d c : Int)
  | encode8Alt (a d c : Int)
  /-- `ENCODE` with two or three operands (R55). -/
  | encode (a d : Int) (c : Option Int)
  /-- `ENCODE.ALT` with two or three operands (R55). -/
  | encodeAlt (a d : Int) (c : Option Int)
deriving DecidableEq, Repr

end Sys2Proof
end

