-- ==== Sys2Proof/WellFormed.lean ====
section
/-! DEFINITION. What makes a command word, a code string and a line of the request notation well formed.

An `Instr` has no check of its own: every operand is a bit vector exactly as wide as its port, and the spec calls every
value of every port legal as an operand (R51, R59); what a value does is the operation's business. -/

namespace Sys2Proof

/-- A command word's fields before they are packed (R45). The widths are checked by `Cmd.wf`, so that a field that does
not fit can be written down and refused. -/
structure Cmd where
  rsv : Nat
  a : Bool
  c : Bool
  op : Nat
deriving DecidableEq, Repr

/-- A command word is legal when RSV is 0, OP is assigned, and A and C are set only with OP = 0b011 (R45, R46, R47). -/
def Cmd.wf (w : Cmd) : Bool :=
  w.rsv == 0 && decide (w.op < 4) && (w.op == 3 || (!w.a && !w.c))

/-- A character has an ASCII code (R54: "ASCII of ch"). -/
def isAscii (ch : Char) : Bool := decide (ch.toNat < 128)

/-- A number fits an unsigned port of `w` bits. -/
def fitsUnsigned (w : Nat) (x : Int) : Bool := decide (0 ≤ x) && decide (x < 2 ^ w)

/-- A number fits a two's-complement operand port (R8, R51). -/
def fitsOperand (x : Int) : Bool := decide (-(2 ^ 31) ≤ x) && decide (x < 2 ^ 31)

/-- A line of the request notation can be presented on the ports (R54; log entry 7): the nibble is 0..15, a code is
0..255, a string has at most 255 characters, all of them ASCII, the raw form of DECODE has its eight codes, and every
numeric operand is a 32-bit two's-complement value. -/
def Asm.wf : Asm → Bool
  | .symfor nib => fitsUnsigned 4 nib
  | .nibforChar ch => isAscii ch
  | .nibforCode code => fitsUnsigned 8 code
  | .decodeString s => decide (s.length ≤ 255) && s.all isAscii
  | .decodeRaw n codes => fitsUnsigned 8 n && codes.length == 8 && codes.all (fitsUnsigned 8)
  | .encode6 a d => fitsOperand a && fitsOperand d
  | .encode6Alt a d => fitsOperand a && fitsOperand d
  | .encode8 a d c => fitsOperand a && fitsOperand d && fitsOperand c
  | .encode8Alt a d c => fitsOperand a && fitsOperand d && fitsOperand c
  | .encode a d c => fitsOperand a && fitsOperand d && c.all fitsOperand
  | .encodeAlt a d c => fitsOperand a && fitsOperand d && c.all fitsOperand

end Sys2Proof
end

