-- ==== Sys2Proof/Decode.lean ====
section
/-! DEFINITION. From a request bundle to the operation it asks for, and back (spec/30_encoding.md R42 to R48).

The block fetches no instructions (R16): what is decoded is a request bundle. CMD alone tells the operations apart
(R46); the operands are the fields the operation reads (R42, R48). -/

namespace Sys2Proof

/-- RSV, bits 7:5 of CMD (R45). -/
def cmdRsv (w : CmdWord) : BitVec 3 := w.extractLsb' 5 3

/-- A, bit 4 of CMD: `alt_variant` (R45). -/
def cmdA (w : CmdWord) : Bool := w.getLsbD 4

/-- C, bit 3 of CMD: comp present (R45). -/
def cmdC (w : CmdWord) : Bool := w.getLsbD 3

/-- OP, bits 2:0 of CMD (R45). -/
def cmdOp (w : CmdWord) : BitVec 3 := w.extractLsb' 0 3

/-- The command word with RSV = 0 and the given A, C and OP (R45). -/
def cmdWord (a c : Bool) (op : BitVec 3) : CmdWord :=
  (if a then 0x10 else 0) ||| (if c then 0x08 else 0) ||| op.setWidth 8

/-- The unpacked fields of a command word (R45). -/
def cmdFields (w : CmdWord) : Cmd :=
  { rsv := (cmdRsv w).toNat, a := cmdA w, c := cmdC w, op := (cmdOp w).toNat }

/-- The operation of a request, with the fields it reads, or why its CMD is illegal (R46, R47). -/
def decode (r : Request) : Except Illegal Instr :=
  if cmdRsv r.cmd ≠ 0 then .error .reservedBits
  else if cmdOp r.cmd = 3 then
    .ok (match cmdC r.cmd, cmdA r.cmd with
      | false, false => .encode6 r.aIn r.dIn
      | false, true => .encode6Alt r.aIn r.dIn
      | true, false => .encode8 r.aIn r.dIn r.cIn
      | true, true => .encode8Alt r.aIn r.dIn r.cIn)
  else if 4 ≤ cmdOp r.cmd then .error .unassignedOp
  else if cmdA r.cmd || cmdC r.cmd then .error .modifierNotAllowed
  else if cmdOp r.cmd = 0 then .ok (.symfor r.nibIn)
  else if cmdOp r.cmd = 1 then .ok (.nibfor r.isym[0])
  else .ok (.decode r.len r.isym)

/-- A request with every field 0. -/
def Request.zero : Request :=
  { cmd := 0, nibIn := 0, len := 0, isym := Vector.replicate 8 0, aIn := 0, dIn := 0, cIn := 0 }

/-- The request that asks for an operation; a field the operation does not read is 0 (R42, R46). -/
def encode : Instr → Request
  | .symfor nib => { Request.zero with cmd := cmdWord false false 0, nibIn := nib }
  | .nibfor sym => { Request.zero with cmd := cmdWord false false 1, isym := #v[sym, 0, 0, 0, 0, 0, 0, 0] }
  | .decode len isym => { Request.zero with cmd := cmdWord false false 2, len := len, isym := isym }
  | .encode6 a d => { Request.zero with cmd := cmdWord false false 3, aIn := a, dIn := d }
  | .encode6Alt a d => { Request.zero with cmd := cmdWord true false 3, aIn := a, dIn := d }
  | .encode8 a d c => { Request.zero with cmd := cmdWord false true 3, aIn := a, dIn := d, cIn := c }
  | .encode8Alt a d c => { Request.zero with cmd := cmdWord true true 3, aIn := a, dIn := d, cIn := c }

/-- How many bits the fields of a request have together (R42): 8 + 4 + 8 + 8*8 + 3*32. -/
abbrev requestBits : Nat := 180

/-- The fields of a request laid end to end, CMD in bits 7:0 and then the fields in the order of R42's table.
DESIGN CHOICE (log entry 4): the spec lays out CMD only; the order of the other fields serves `decodeTableWord`. -/
def Request.toBits (r : Request) : BitVec 180 :=
  r.cmd.setWidth 180 ||| r.nibIn.setWidth 180 <<< 8 ||| r.len.setWidth 180 <<< 12
    ||| r.isym[0].setWidth 180 <<< 20 ||| r.isym[1].setWidth 180 <<< 28
    ||| r.isym[2].setWidth 180 <<< 36 ||| r.isym[3].setWidth 180 <<< 44
    ||| r.isym[4].setWidth 180 <<< 52 ||| r.isym[5].setWidth 180 <<< 60
    ||| r.isym[6].setWidth 180 <<< 68 ||| r.isym[7].setWidth 180 <<< 76
    ||| r.aIn.setWidth 180 <<< 84 ||| r.dIn.setWidth 180 <<< 116
    ||| r.cIn.setWidth 180 <<< 148

/-- The request whose fields lie end to end in `b`, as `Request.toBits` lays them. -/
def Request.ofBits (b : BitVec 180) : Request :=
  { cmd := b.extractLsb' 0 8
    nibIn := b.extractLsb' 8 4
    len := b.extractLsb' 12 8
    isym := #v[b.extractLsb' 20 8, b.extractLsb' 28 8, b.extractLsb' 36 8, b.extractLsb' 44 8,
      b.extractLsb' 52 8, b.extractLsb' 60 8, b.extractLsb' 68 8, b.extractLsb' 76 8]
    aIn := b.extractLsb' 84 32
    dIn := b.extractLsb' 116 32
    cIn := b.extractLsb' 148 32 }

/-- The request whose lowest `nbits` bits are those of `w` and whose other bits are 0. -/
def Request.ofTableWord (nbits w : Nat) : Request :=
  Request.ofBits (BitVec.ofNat requestBits (w % 2 ^ nbits))

/-- What the decoder reads from a word of spec/opcode_table.json: its `nbits` bits are the low bits of the request. -/
def decodeTableWord (nbits w : Nat) : Option Instr :=
  match decode (Request.ofTableWord nbits w) with
  | .ok i => some i
  | .error _ => none

end Sys2Proof
end

