-- ==== Sys2Proof/Config.lean ====
section
/-! DEFINITION. What is fixed when the block is built, and the one value the spec leaves unspecified.

ALPHABET is an OPEN parameter (R6, spec/92_eei_decisions.md D3). The model does not fix it: it lies in every State
(`State.roms`), so a claim about every state is a claim about every legal ALPHABET. The default below is only what
`State.reset` is built with (log entry 1).
LATENCY is OPEN too (R9) and no rule depends on it (R97): the model keeps no time, and `State.schedule` lets any number
of other events stand between a request and its response (log entry 3). -/

namespace Sys2Proof.Config

/-- The recommended default ALPHABET, `"APZLGITYEOXUKSVN"` (R6). PRESUMED: the spec marks it as general knowledge (G2). -/
def defaultAlphabet : Alphabet :=
  #v[0x41, 0x50, 0x5A, 0x4C, 0x47, 0x49, 0x54, 0x59, 0x45, 0x4F, 0x58, 0x55, 0x4B, 0x53, 0x56, 0x4E]

/-- What the response lines of port `port` carry while no response is valid there: any value
(R26, spec/93_implementation_defined.md I7). A free value: nothing is known of it. The second argument is
`State.freeIdx`, so that every step has a value of its own. -/
opaque unspecifiedLines (port index : Nat) : Response

end Sys2Proof.Config
end

