-- ==== Sys2Proof/Machine/Alphabet.lean ====
section
/-! DEFINITION. The alphabet: case normalization, the entries of INV_ROM, and which ALPHABET is legal
(spec/00_scope.md R6; spec/10_state.md R19 to R22; spec/40_lookup.md R57). -/

namespace Sys2Proof.Machine

/-- A code is an ASCII lower-case letter, 0x61..0x7A (R6, R57). -/
def isLower (c : Symbol) : Bool := decide (0x61 ≤ c) && decide (c ≤ 0x7A)

/-- `norm(c)`: lower-case ASCII letters fold to upper case, every other code stays (R57). -/
def norm (c : Symbol) : Symbol := if isLower c then c - 0x20 else c

/-- One entry of INV_ROM, `{valid, nib[3:0]}` (R21). -/
structure InvEntry where
  valid : Bool
  nib : Nibble
deriving DecidableEq, Repr, Inhabited

/-- The entry of INV_ROM at `c` for a given SYM_ROM (R21). -/
def invEntryOf (sym : Alphabet) (c : Symbol) : InvEntry :=
  match (List.finRange 16).find? (fun i => sym[i] == norm c) with
  | some i => { valid := true, nib := BitVec.ofFin i }
  | none => { valid := false, nib := 0 }

/-- The whole of INV_ROM, computed once from SYM_ROM (R21, R95). -/
def deriveInvRom (sym : Alphabet) : Vector InvEntry 256 :=
  ⟨((List.range 256).map fun c => invEntryOf sym (BitVec.ofNat 8 c)).toArray, by simp⟩

/-- An ALPHABET the block may be built with: its entries are pairwise distinct (R20) and none is an ASCII lower-case
letter (R6). -/
def alphabetLegal (sym : Alphabet) : Bool :=
  decide sym.toList.Nodup && sym.toList.all (fun c => !isLower c)

end Sys2Proof.Machine
end

