-- ==== Sys2Proof/Machine/State.lean ====
section
/-! DEFINITION. The state of the NSC block (spec/10_state.md R26) and its value after reset, and the reasons a step can
stop. The block has no register, program counter, flag or mode (R15 to R18), so State has none. -/

namespace Sys2Proof.Machine

/-- The two read-only tables, as built (R19, R21, R95). The last two fields are the conditions of building: a block with
an illegal ALPHABET is refused (R20), and INV_ROM is never a table of its own but the one derived from SYM_ROM (R95).
So no value of this type breaks either condition (log entry 9). -/
structure Roms where
  symRom : Alphabet
  invRom : Vector InvEntry 256
  legal : alphabetLegal symRom = true
  derived : invRom = deriveInvRom symRom
deriving DecidableEq, Repr

/-- The tables of a block built with a legal ALPHABET. -/
def Roms.ofLegal (sym : Alphabet) (h : alphabetLegal sym = true) : Roms :=
  { symRom := sym, invRom := deriveInvRom sym, legal := h, derived := rfl }

/-- A request that was accepted and not yet answered, with the port of its requester (R24, R27). -/
structure InFlight where
  port : Nat
  req : Request
deriving DecidableEq, Repr

/-- One thing that can happen next (log entry 3). -/
inductive Event where
  /-- The requester on `port` presents a request and the block accepts it (R42, R94). -/
  | present (port : Nat) (req : Request)
  /-- The response to the oldest request in flight of `port` comes due: its LATENCY has passed (R24, R37). -/
  | complete (port : Nat)
  /-- The block is reset (R92, R93). -/
  | reset
deriving DecidableEq, Repr

/-- The state of the block. -/
structure State where
  /-- SYM_ROM and INV_ROM (R19, R21, R26). -/
  roms : Roms
  /-- The in-flight queue, oldest request first (R24, R26). -/
  inflight : List InFlight
  /-- The port the response on the response outputs goes to (R80). -/
  outPort : Nat
  /-- The response outputs: the response the latest step delivered, none where no response is valid (R26, R43). -/
  response : Option Response
  /-- The model's own: what happens next, in order (log entry 3). -/
  schedule : List Event
  /-- The model's own: picks the free value on lines where no response is valid (I7, log entry 2). -/
  freeIdx : Nat
deriving DecidableEq, Repr

/-- Why the machine stops with a fault: never. The block has no trap; every error is a response (R80), so this type has
no constructor. Safe: no run is cut short. -/
inductive Fault
deriving DecidableEq, Repr

/-- Why a step has no meaning in the model. -/
inductive Refusal where
  /-- Raised by `exec` for an operation the model has no meaning for yet; no operation is left so. Safe. -/
  | notModelled (mnemonic : String)
deriving DecidableEq, Repr

theorem defaultAlphabet_legal : alphabetLegal Config.defaultAlphabet = true := by decide

/-- The block right after reset, for given tables: the queue is empty, no response is valid (R26, R92, R93). The model's
own fields start empty and 0 (log entries 2, 3, 6). -/
def State.resetWith (roms : Roms) : State :=
  { roms := roms, inflight := [], outPort := 0, response := none, schedule := [], freeIdx := 0 }

/-- The block right after reset, built with the recommended default ALPHABET (R6, log entry 1). -/
def State.reset : State :=
  State.resetWith (Roms.ofLegal Config.defaultAlphabet defaultAlphabet_legal)

end Sys2Proof.Machine
end

