-- ==== Sys2Proof/Machine/Flags.lean ====
section
/-! DEFINITION. The status and error-field codes (spec/30_encoding.md R49, R50) and the one flag of a response, WARN
(spec/41_decode.md R67). No flag outlives its response (R17). -/

namespace Sys2Proof.Machine

/-- The value of STATUS on the port (R49). -/
def statusCode : Status → BitVec 3
  | .ok => 0
  | .invalidLength => 1
  | .invalidSymbol => 2
  | .outOfRange => 3
  | .illegalOp => 7

/-- The value of ERR_FIELD on the port (R50). -/
def errFieldCode : ErrField → BitVec 2
  | .address => 0
  | .data => 1
  | .comp => 2

/-- WARN: bit 0x8 of n[2] is unset (R67). -/
def warnOf (n : Slots) : Bool := n[2] &&& 0x8 == 0

end Sys2Proof.Machine
end

