-- ==== Sys2Proof/Machine/Ops.lean ====
section
/-! DEFINITION. The operations every meaning is built from: reading the two tables, building the block, responding,
raising an error, and what the block does between operations (accepting, choosing the next request, reset). -/

namespace Sys2Proof.Machine

/-- `SymRead(i)`: the entry of SYM_ROM at a nibble (R13, R29). -/
def symRead (roms : Roms) (i : Nibble) : Symbol := roms.symRom[i.toNat]

/-- `InvRead(c)`: the entry of INV_ROM at a symbol code (R13, R29). -/
def invRead (roms : Roms) (c : Symbol) : InvEntry := roms.invRom[c.toNat]

/-- Building the block: an illegal ALPHABET is refused (R20), and INV_ROM is computed from a legal one (R95). -/
def Roms.build (sym : Alphabet) : Option Roms :=
  if h : alphabetLegal sym = true then some (Roms.ofLegal sym h) else none

/-- The response with every field 0, from which every response is made (R44). -/
def zeroResponse : Response :=
  { status := .ok, warn := false, addr := 0, data := 0, comp := 0, compv := false, nib := 0, olen := 0,
    osym := Vector.replicate 8 0, errIndex := 0, errChar := 0, errField := 0, errValue := 0 }

/-- `respond(...)`: the operation ends and its response is delivered (R13, R43). Nothing else changes (R25). -/
def State.respond (s : State) (r : Response) : State := { s with response := some r }

/-- An error with the values its rule records (R81 to R84). -/
inductive ErrorInfo where
  | invalidLength (len : BitVec 8)
  | invalidSymbol (index : BitVec 3) (char : Symbol)
  | outOfRange (field : ErrField) (value : Operand)
  | illegalOp
deriving DecidableEq, Repr

/-- The response of an error: its STATUS, its recorded values, and 0 in every other field (R44, R81 to R84, R87). -/
def errorResponse : ErrorInfo → Response
  | .invalidLength len => { zeroResponse with status := .invalidLength, errValue := len.setWidth 32 }
  | .invalidSymbol index char =>
    { zeroResponse with status := .invalidSymbol, errIndex := index, errChar := char }
  | .outOfRange field value =>
    { zeroResponse with status := .outOfRange, errField := errFieldCode field, errValue := value }
  | .illegalOp => { zeroResponse with status := .illegalOp }

/-- `raise E(info)`: an error is an ordinary response, and no state changes (R13, R80, R88). The one way any operation
reports an error; there is nothing to return from (R88). -/
def State.raise (s : State) (e : ErrorInfo) : State := s.respond (errorResponse e)

/-- The response of an operation that ended in a response or an error. -/
def outcomeResponse : Except ErrorInfo Response → Response
  | .ok r => r
  | .error e => errorResponse e

/-- The operation ends with its response or its error (R13, R80). -/
def State.conclude (s : State) (x : Except ErrorInfo Response) : State := s.respond (outcomeResponse x)

/-- What a step begins with: the response of an earlier step is no longer on the outputs, so each response is delivered
once (R37, log entry 6), and the free value moves on (log entry 2). -/
def State.begin (s : State) : State := { s with response := none, freeIdx := s.freeIdx + 1 }

/-- The block accepts a request: it joins the queue as its newest entry (R24, R42). -/
def State.accept (s : State) (port : Nat) (req : Request) : State :=
  { s with inflight := s.inflight ++ [{ port := port, req := req }] }

/-- Reset: the requests in flight are discarded with no response, and the tables stay (R92, R93). -/
def State.applyReset (s : State) : State := { s with inflight := [], response := none }

/-- The oldest request in flight of a port, and the queue without it (R37). -/
def takePort (port : Nat) : List InFlight → Option (InFlight × List InFlight)
  | [] => none
  | e :: rest =>
    if e.port = port then some (e, rest)
    else match takePort port rest with
      | some (x, rest') => some (x, e :: rest')
      | none => none

/-- What the next step is to do. -/
inductive Action where
  /-- The step performs no operation and ends in `s`. -/
  | pass (s : State)
  /-- The step performs the operation `req` asks for, in `s`. -/
  | serve (req : Request) (s : State)
deriving DecidableEq, Repr

/-- The request `e` leaves the queue and its response is to go to its requester (R80). -/
def State.serving (s : State) (e : InFlight) (rest : List InFlight) : Action :=
  .serve e.req { s with inflight := rest, outPort := e.port }

/-- The step a scheduled event stands for, or, where nothing is scheduled, the answer to the oldest request in flight.
An event or an empty schedule that finds no request to answer passes (log entry 3). -/
def State.nextAction (s : State) : Action :=
  match s.schedule with
  | [] =>
    match s.inflight with
    | [] => .pass s.begin
    | e :: rest => s.begin.serving e rest
  | .present port req :: es => .pass ({ s with schedule := es }.begin.accept port req)
  | .reset :: es => .pass { s with schedule := es }.begin.applyReset
  | .complete port :: es =>
    match takePort port s.inflight with
    | none => .pass { s with schedule := es }.begin
    | some (e, rest) => { s with schedule := es }.begin.serving e rest

/-- What a requester on `port` reads on its response lines: the response where one is valid there, any value elsewhere
(R26, I7). -/
def State.lines (s : State) (port : Nat) : Response :=
  match s.response with
  | some r => if s.outPort = port then r else Config.unspecifiedLines port s.freeIdx
  | none => Config.unspecifiedLines port s.freeIdx

end Sys2Proof.Machine
end

