-- ==== Sys2Proof/Machine/Operands.lean ====
section
/-! DEFINITION. How operands are taken: the code string of DECODE (spec/41_decode.md R62, R63) and the numeric operands
of the encoder (spec/30_encoding.md R50, R51; spec/42_encode.md R70). -/

namespace Sys2Proof.Machine

/-- The legal interval of a numeric field, a constant of the block (R50). -/
def fieldBounds : ErrField → Int × Int
  | .address => (0x8000, 0xFFFF)
  | .data => (0x00, 0xFF)
  | .comp => (0x00, 0xFF)

/-- An operand lies in the closed interval of its field, compared as a signed integer (R14, R70, R83). -/
def inRange (f : ErrField) (v : Operand) : Bool :=
  decide ((fieldBounds f).1 ≤ v.toInt) && decide (v.toInt ≤ (fieldBounds f).2)

/-- The range check: address, then data, then comp where there is one; the first failure is reported (R70). -/
def rangeCheck (a d : Operand) (c : Option Operand) : Except ErrorInfo Unit :=
  if !inRange .address a then .error (.outOfRange .address a)
  else if !inRange .data d then .error (.outOfRange .data d)
  else match c with
    | none => .ok ()
    | some v => if !inRange .comp v then .error (.outOfRange .comp v) else .ok ()

/-- `A_IN[15:0]`, the address after the range check (R51, R70). -/
def addressOf (a : Operand) : Address := a.extractLsb' 0 16

/-- `D_IN[7:0]` or `C_IN[7:0]`, a byte after the range check (R51, R70). -/
def byteOf (v : Operand) : Byte := v.extractLsb' 0 8

/-- LEN is one of the two lengths a code string has (R62). -/
def lengthLegal (len : BitVec 8) : Bool := len == 6 || len == 8

/-- The nibbles of a list of symbols whose first one stands in slot `i`, in ascending order; the first symbol that is not
found is reported with its slot and its code as presented (R63, R82). -/
def lookupFrom (roms : Roms) (i : Nat) : List Symbol → Except ErrorInfo (List Nibble)
  | [] => .ok []
  | c :: cs =>
    if (invRead roms c).valid then
      match lookupFrom roms (i + 1) cs with
      | .ok ns => .ok ((invRead roms c).nib :: ns)
      | .error e => .error e
    else .error (.invalidSymbol (BitVec.ofNat 3 i) c)

/-- The slots that hold a list of at most eight nibbles in order (R32); nothing reads a slot beyond the list. -/
def slotsOf (ns : List Nibble) : Slots :=
  #v[ns.getD 0 0, ns.getD 1 0, ns.getD 2 0, ns.getD 3 0, ns.getD 4 0, ns.getD 5 0, ns.getD 6 0, ns.getD 7 0]

end Sys2Proof.Machine
end

