-- ==== Sys2Proof/Machine/Decoder.lean ====
section
/-! DEFINITION. The decode pipeline, DECODE (spec/41_decode.md). -/

namespace Sys2Proof.Machine

/-- `ASSEMBLE_ADDR(n)` (R64). -/
def assembleAddr (n : Slots) : Address :=
  0x8000
    ||| ((n[3] &&& 0x7).setWidth 16 <<< 12)
    ||| ((n[5] &&& 0x7).setWidth 16 <<< 8) ||| ((n[4] &&& 0x8).setWidth 16 <<< 8)
    ||| ((n[2] &&& 0x7).setWidth 16 <<< 4) ||| ((n[1] &&& 0x8).setWidth 16 <<< 4)
    ||| (n[4] &&& 0x7).setWidth 16 ||| (n[3] &&& 0x8).setWidth 16

/-- `DATA6(n)`, the data byte of a 6-symbol code (R65). -/
def data6 (n : Slots) : Byte :=
  ((n[1] &&& 0x7).setWidth 8 <<< 4) ||| ((n[0] &&& 0x8).setWidth 8 <<< 4)
    ||| (n[0] &&& 0x7).setWidth 8 ||| (n[5] &&& 0x8).setWidth 8

/-- `DATA8(n)`, the data byte of an 8-symbol code (R66). -/
def data8 (n : Slots) : Byte :=
  ((n[1] &&& 0x7).setWidth 8 <<< 4) ||| ((n[0] &&& 0x8).setWidth 8 <<< 4)
    ||| (n[0] &&& 0x7).setWidth 8 ||| (n[7] &&& 0x8).setWidth 8

/-- `COMP8(n)`, the comparison byte of an 8-symbol code (R66). -/
def comp8 (n : Slots) : Byte :=
  ((n[7] &&& 0x7).setWidth 8 <<< 4) ||| ((n[6] &&& 0x8).setWidth 8 <<< 4)
    ||| (n[6] &&& 0x7).setWidth 8 ||| (n[5] &&& 0x8).setWidth 8

/-- Stages 3 and 4 of a 6-symbol code: `comp` is absent (R65, R67). -/
def decodeFields6 (n : Slots) : Response :=
  { zeroResponse with addr := assembleAddr n, data := data6 n, warn := warnOf n }

/-- Stages 3 and 4 of an 8-symbol code (R66, R67). -/
def decodeFields8 (n : Slots) : Response :=
  { zeroResponse with
    addr := assembleAddr n, data := data8 n, comp := comp8 n, compv := true, warn := warnOf n }

/-- The response of DECODE, or its error: the length first, then the symbols in ascending order, then the fields
(R61, R62, R63). -/
def decodeResult (roms : Roms) (len : BitVec 8) (isym : Symbols) : Except ErrorInfo Response :=
  if !lengthLegal len then .error (.invalidLength len)
  else match lookupFrom roms 0 (isym.toList.take len.toNat) with
    | .error e => .error e
    | .ok ns => .ok (if len == 6 then decodeFields6 (slotsOf ns) else decodeFields8 (slotsOf ns))

/-- DECODE (R61). -/
def execDecode (len : BitVec 8) (isym : Symbols) (s : State) : Host.Outcome State Fault Refusal :=
  .next (s.conclude (decodeResult s.roms len isym))

end Sys2Proof.Machine
end

