-- ==== Sys2Proof/Machine/Encoder.lean ====
section
/-! DEFINITION. The encode pipeline, ENCODE6 and ENCODE8 with their A bit (spec/42_encode.md). -/

namespace Sys2Proof.Machine

/-- n[0] of every code (R71). -/
def slot0 (data : Byte) : Nibble := (((data >>> 4) &&& 0x8) ||| (data &&& 0x7)).setWidth 4

/-- n[1] of every code (R71). -/
def slot1 (address : Address) (data : Byte) : Nibble :=
  ((address >>> 4) &&& 0x8).setWidth 4 ||| ((data >>> 4) &&& 0x7).setWidth 4

/-- n[2] of every code; `alt` clears its bit 3 (R71, R72). -/
def slot2 (alt : Bool) (address : Address) : Nibble :=
  ((address >>> 4) &&& 0x7).setWidth 4 ||| (if alt then 0 else 0x8)

/-- n[3] of every code (R71). -/
def slot3 (address : Address) : Nibble := (((address >>> 12) &&& 0x7) ||| (address &&& 0x8)).setWidth 4

/-- n[4] of every code (R71). -/
def slot4 (address : Address) : Nibble := (((address >>> 8) &&& 0x8) ||| (address &&& 0x7)).setWidth 4

/-- n[5] before the branch fills its bit 3 (R71). -/
def slot5 (address : Address) : Nibble := ((address >>> 8) &&& 0x7).setWidth 4

/-- The six slots of a 6-symbol code: bit 3 of `data` goes to n[5] (R74). -/
def encodeSlots6 (alt : Bool) (address : Address) (data : Byte) : List Nibble :=
  [slot0 data, slot1 address data, slot2 alt address, slot3 address, slot4 address,
    slot5 address ||| (data &&& 0x8).setWidth 4]

/-- The eight slots of an 8-symbol code: bit 3 of `comp` goes to n[5] and bit 3 of `data` to n[7] (R75). -/
def encodeSlots8 (alt : Bool) (address : Address) (data comp : Byte) : List Nibble :=
  [slot0 data, slot1 address data, slot2 alt address, slot3 address, slot4 address,
    slot5 address ||| (comp &&& 0x8).setWidth 4,
    (((comp >>> 4) &&& 0x8) ||| (comp &&& 0x7)).setWidth 4,
    (((comp >>> 4) &&& 0x7) ||| (data &&& 0x8)).setWidth 4]

/-- Stage 3: each slot becomes a symbol in slot order, and the slots beyond them are 0 (R44, R73). -/
def emit (roms : Roms) (ns : List Nibble) : Response :=
  let cs := ns.map (symRead roms)
  { zeroResponse with
    olen := BitVec.ofNat 4 ns.length
    osym := #v[cs.getD 0 0, cs.getD 1 0, cs.getD 2 0, cs.getD 3 0, cs.getD 4 0, cs.getD 5 0, cs.getD 6 0, cs.getD 7 0] }

/-- The response of ENCODE6 with a given A bit, or its error (R74). C_IN is not read (R48, R70). -/
def encode6Result (roms : Roms) (alt : Bool) (a d : Operand) : Except ErrorInfo Response :=
  match rangeCheck a d none with
  | .error e => .error e
  | .ok () => .ok (emit roms (encodeSlots6 alt (addressOf a) (byteOf d)))

/-- The response of ENCODE8 with a given A bit, or its error (R75). -/
def encode8Result (roms : Roms) (alt : Bool) (a d c : Operand) : Except ErrorInfo Response :=
  match rangeCheck a d (some c) with
  | .error e => .error e
  | .ok () => .ok (emit roms (encodeSlots8 alt (addressOf a) (byteOf d) (byteOf c)))

/-- ENCODE6 (R74, A = 0). -/
def execEncode6 (a d : Operand) (s : State) : Host.Outcome State Fault Refusal :=
  .next (s.conclude (encode6Result s.roms false a d))

/-- ENCODE6.ALT (R74, A = 1). -/
def execEncode6Alt (a d : Operand) (s : State) : Host.Outcome State Fault Refusal :=
  .next (s.conclude (encode6Result s.roms true a d))

/-- ENCODE8 (R75, A = 0). -/
def execEncode8 (a d c : Operand) (s : State) : Host.Outcome State Fault Refusal :=
  .next (s.conclude (encode8Result s.roms false a d c))

/-- ENCODE8.ALT (R75, A = 1). -/
def execEncode8Alt (a d c : Operand) (s : State) : Host.Outcome State Fault Refusal :=
  .next (s.conclude (encode8Result s.roms true a d c))

end Sys2Proof.Machine
end

