-- ==== Sys2Proof/Machine/Lookup.lean ====
section
/-! DEFINITION. The alphabet lookups SYMFOR and NIBFOR (spec/40_lookup.md). -/

namespace Sys2Proof.Machine

/-- The response of SYMFOR (R59). -/
def symforResponse (roms : Roms) (nib : Nibble) : Response :=
  { zeroResponse with olen := 1, osym := #v[symRead roms nib, 0, 0, 0, 0, 0, 0, 0] }

/-- The response of NIBFOR, or its error (R60). -/
def nibforResult (roms : Roms) (sym : Symbol) : Except ErrorInfo Response :=
  if (invRead roms sym).valid then .ok { zeroResponse with nib := (invRead roms sym).nib }
  else .error (.invalidSymbol 0 sym)

/-- SYMFOR (R59). -/
def execSymfor (nib : Nibble) (s : State) : Host.Outcome State Fault Refusal :=
  .next (s.respond (symforResponse s.roms nib))

/-- NIBFOR (R60). -/
def execNibfor (sym : Symbol) (s : State) : Host.Outcome State Fault Refusal :=
  .next (s.conclude (nibforResult s.roms sym))

end Sys2Proof.Machine
end

