-- ==== Sys2Proof/Machine/Dispatch.lean ====
section
/-! DEFINITION. One arm for each operation, one direct call of its meaning. -/

namespace Sys2Proof.Machine

def exec (i : Instr) (s : State) : Host.Outcome State Fault Refusal :=
  match i with
  | .symfor nib => Sys2Proof.Machine.execSymfor nib s
  | .nibfor sym => Sys2Proof.Machine.execNibfor sym s
  | .decode len isym => Sys2Proof.Machine.execDecode len isym s
  | .encode6 a d => Sys2Proof.Machine.execEncode6 a d s
  | .encode6Alt a d => Sys2Proof.Machine.execEncode6Alt a d s
  | .encode8 a d c => Sys2Proof.Machine.execEncode8 a d c s
  | .encode8Alt a d c => Sys2Proof.Machine.execEncode8Alt a d c s

end Sys2Proof.Machine
end

