-- ==== Sys2Proof/Machine/Perform.lean ====
section
/-! DEFINITION. Performing one request: decode it and run its operation, or answer an illegal command word. -/

namespace Sys2Proof.Machine

/-- The operation of a request, or, for an illegal CMD, the response ILLEGAL_OP with every other field 0, whatever the
other request fields are (R46, R47, R84, R86). -/
def perform (req : Request) (s : State) : Host.Outcome State Fault Refusal :=
  match decode req with
  | .ok i => exec i s
  | .error _ => .next (s.raise .illegalOp)

/-- A request placed at the front: it is the oldest in flight of port 0, and port 0 is answered next (log entry 5). -/
def State.placeNext (s : State) (req : Request) : State :=
  { s with inflight := { port := 0, req := req } :: s.inflight, schedule := .complete 0 :: s.schedule }

end Sys2Proof.Machine
end

