-- ==== Sys2Proof/Machine/Step.lean ====
section
/-! DEFINITION. One step of the block: an event of the schedule, or the answer to one request (R24, R37, R97). -/

namespace Sys2Proof.Machine

/-- One step: the next action's request is performed, or the action passes with no operation. -/
def step (s : State) : Host.Outcome State Fault Refusal :=
  match s.nextAction with
  | .pass t => .next t
  | .serve req t => perform req t

/-- `s` with the request whose lowest `nbits` bits are `w` placed so that the very next step performs it
(log entry 5). -/
def State.withFetchWord (s : State) (nbits w : Nat) : State :=
  s.placeNext (Request.ofTableWord nbits w)

end Sys2Proof.Machine
end

