-- ==== Sys2Proof/Machine/Assembler.lean ====
section
/-! DEFINITION. The textual request notation (spec/30_encoding.md R54, R55): from a line of text to the request it stands
for, and the non-zero fields a response is written with. Details the spec leaves open are in log entries 7 and 8. -/

namespace Sys2Proof.Machine

/-- A pseudo-instruction becomes the operation it stands for; any other line stays (R55). -/
def expand : Asm → Asm
  | .encode a d none => .encode6 a d
  | .encode a d (some c) => .encode8 a d c
  | .encodeAlt a d none => .encode6Alt a d
  | .encodeAlt a d (some c) => .encode8Alt a d c
  | line => line

/-- The symbols of the first eight characters of a string, and 0 in the other slots (R54). -/
def symbolsOfString (s : List Char) : Symbols :=
  let cs := s.map fun ch => BitVec.ofNat 8 ch.toNat
  #v[cs.getD 0 0, cs.getD 1 0, cs.getD 2 0, cs.getD 3 0, cs.getD 4 0, cs.getD 5 0, cs.getD 6 0, cs.getD 7 0]

/-- The symbols of the eight codes of the raw form of DECODE (R54). -/
def symbolsOfCodes (codes : List Int) : Symbols :=
  let cs := codes.map (BitVec.ofInt 8)
  #v[cs.getD 0 0, cs.getD 1 0, cs.getD 2 0, cs.getD 3 0, cs.getD 4 0, cs.getD 5 0, cs.getD 6 0, cs.getD 7 0]

/-- The operation a line asks for; a pseudo-instruction has none until it is expanded (R54). -/
def instrOf : Asm → Option Instr
  | .symfor nib => some (.symfor (BitVec.ofInt 4 nib))
  | .nibforChar ch => some (.nibfor (BitVec.ofNat 8 ch.toNat))
  | .nibforCode code => some (.nibfor (BitVec.ofInt 8 code))
  | .decodeString s => some (.decode (BitVec.ofNat 8 s.length) (symbolsOfString s))
  | .decodeRaw n codes => some (.decode (BitVec.ofInt 8 n) (symbolsOfCodes codes))
  | .encode6 a d => some (.encode6 (BitVec.ofInt 32 a) (BitVec.ofInt 32 d))
  | .encode6Alt a d => some (.encode6Alt (BitVec.ofInt 32 a) (BitVec.ofInt 32 d))
  | .encode8 a d c => some (.encode8 (BitVec.ofInt 32 a) (BitVec.ofInt 32 d) (BitVec.ofInt 32 c))
  | .encode8Alt a d c => some (.encode8Alt (BitVec.ofInt 32 a) (BitVec.ofInt 32 d) (BitVec.ofInt 32 c))
  | .encode _ _ _ => none
  | .encodeAlt _ _ _ => none

/-- The request a line stands for; an ill-formed line stands for none (R54, R55). -/
def assemble (line : Asm) : Option Request :=
  if line.wf then (instrOf (expand line)).map encode else none

/-- A token of a line. -/
inductive Token where
  | word (cs : List Char)
  | char (c : Char)
  | text (cs : List Char)
  | comma
  | equals
  | openBracket
  | closeBracket
deriving DecidableEq, Repr

/-- Where the tokenizer stands: between or inside words, with the word so far reversed, or inside a quoted string. -/
inductive LexMode where
  | plain (acc : List Char)
  | text (acc : List Char)

/-- The double quote and the single quote, by their codes. -/
def doubleQuote : Char := Char.ofNat 0x22
def singleQuote : Char := Char.ofNat 0x27

/-- The word read so far, if any, stands before the later tokens. -/
def flushWord (acc : List Char) (ts : List Token) : List Token :=
  if acc.isEmpty then ts else .word acc.reverse :: ts

/-- The token a single character stands for on its own. -/
def punctuation (c : Char) : Option Token :=
  if c = ',' then some .comma
  else if c = '=' then some .equals
  else if c = '[' then some .openBracket
  else if c = ']' then some .closeBracket
  else none

/-- The tokens of a line; `;` outside quotes starts a comment (R54). -/
def lex : LexMode → List Char → Option (List Token)
  | .plain acc, [] => some (flushWord acc [])
  | .text _, [] => none
  | .text acc, c :: cs =>
    if c = doubleQuote then (lex (.plain []) cs).map (Token.text acc.reverse :: ·) else lex (.text (c :: acc)) cs
  | .plain acc, c :: cs =>
    if c = ';' then some (flushWord acc [])
    else if c = doubleQuote then (lex (.text []) cs).map (flushWord acc)
    else if c = singleQuote then
      match cs with
      | ch :: q :: rest =>
        if q = singleQuote then (lex (.plain []) rest).map (fun ts => flushWord acc (.char ch :: ts)) else none
      | _ => none
    else if c = ' ' || c = '\t' || c = '\r' then (lex (.plain []) cs).map (flushWord acc)
    else match punctuation c with
      | some t => (lex (.plain []) cs).map (fun ts => flushWord acc (t :: ts))
      | none => lex (.plain (c :: acc)) cs

/-- The value of a digit in a base of at most 16. -/
def digitValue (base : Nat) (c : Char) : Option Nat :=
  let v :=
    if '0' ≤ c ∧ c ≤ '9' then some (c.toNat - '0'.toNat)
    else if 'a' ≤ c ∧ c ≤ 'f' then some (c.toNat - 'a'.toNat + 10)
    else if 'A' ≤ c ∧ c ≤ 'F' then some (c.toNat - 'A'.toNat + 10)
    else none
  v.filter (· < base)

/-- The value of the digits after `acc`. -/
def digitsValue (base acc : Nat) : List Char → Option Nat
  | [] => some acc
  | c :: cs =>
    match digitValue base c with
    | some d => digitsValue base (acc * base + d) cs
    | none => none

/-- An unsigned number, decimal, or hexadecimal after `0x` (R54). -/
def natOfWord : List Char → Option Nat
  | [] => none
  | '0' :: 'x' :: d :: ds => digitsValue 16 0 (d :: ds)
  | d :: ds => digitsValue 10 0 (d :: ds)

/-- A number, which may be negative with `-` (R54). -/
def numberOfWord : List Char → Option Int
  | '-' :: w => (natOfWord w).map fun n => -(n : Int)
  | w => (natOfWord w).map fun n => (n : Int)

/-- The codes of the raw form of DECODE, after the opening bracket (R54). -/
def parseCodes : List Token → Option (List Int)
  | [.word w, .closeBracket] => (numberOfWord w).map fun n => [n]
  | .word w :: .comma :: ts =>
    match numberOfWord w, parseCodes ts with
    | some n, some ns => some (n :: ns)
    | _, _ => none
  | _ => none

/-- A line with two numeric operands (R54, R55). -/
def parseTwo (m : List Char) (a d : Int) : Option Asm :=
  if m = "ENCODE6".toList then some (.encode6 a d)
  else if m = "ENCODE6.ALT".toList then some (.encode6Alt a d)
  else if m = "ENCODE".toList then some (.encode a d none)
  else if m = "ENCODE.ALT".toList then some (.encodeAlt a d none)
  else none

/-- A line with three numeric operands (R54, R55). -/
def parseThree (m : List Char) (a d c : Int) : Option Asm :=
  if m = "ENCODE8".toList then some (.encode8 a d c)
  else if m = "ENCODE8.ALT".toList then some (.encode8Alt a d c)
  else if m = "ENCODE".toList then some (.encode a d (some c))
  else if m = "ENCODE.ALT".toList then some (.encodeAlt a d (some c))
  else none

/-- The line a list of tokens stands for (R54, R55). -/
def parseTokens : List Token → Option Asm
  | [.word m, .word n] =>
    match numberOfWord n with
    | some x =>
      if m = "SYMFOR".toList then some (.symfor x)
      else if m = "NIBFOR".toList then some (.nibforCode x)
      else none
    | none => none
  | [.word m, .char ch] => if m = "NIBFOR".toList then some (.nibforChar ch) else none
  | [.word m, .text s] => if m = "DECODE".toList then some (.decodeString s) else none
  | .word m :: .word l :: .equals :: .word n :: .comma :: .openBracket :: ts =>
    if m = "DECODE".toList ∧ l = "LEN".toList then
      match numberOfWord n, parseCodes ts with
      | some x, some cs => some (.decodeRaw x cs)
      | _, _ => none
    else none
  | [.word m, .word a, .comma, .word d] =>
    match numberOfWord a, numberOfWord d with
    | some x, some y => parseTwo m x y
    | _, _ => none
  | [.word m, .word a, .comma, .word d, .comma, .word c] =>
    match numberOfWord a, numberOfWord d, numberOfWord c with
    | some x, some y, some z => parseThree m x y z
    | _, _, _ => none
  | _ => none

/-- The requests of one line: none for a line with only a comment, one for a request; no result for a line that is not
of the notation or not well formed. -/
def assembleLine (line : List Char) : Option (List Request) :=
  match lex (.plain []) line with
  | none => none
  | some [] => some []
  | some ts =>
    match parseTokens ts with
    | some l => (assemble l).map fun r => [r]
    | none => none

/-- The lines of a text. -/
def linesOf : List Char → List (List Char)
  | [] => [[]]
  | c :: cs =>
    if c = '\n' then [] :: linesOf cs
    else match linesOf cs with
      | l :: ls => (c :: l) :: ls
      | [] => [[c]]

/-- The requests of lines, one request per line (R54). -/
def assembleLines : List (List Char) → Option (List Request)
  | [] => some []
  | l :: ls =>
    match assembleLine l, assembleLines ls with
    | some rs, some rest => some (rs ++ rest)
    | _, _ => none

/-- The requests a text stands for, in order (R54; the "program" of R16). -/
def assembleText (text : List Char) : Option (List Request) := assembleLines (linesOf text)

/-- Every field of a response with its name and its value as a number, in the order of R43's table. -/
def responseFields (r : Response) : List (String × Nat) :=
  [("STATUS", (statusCode r.status).toNat), ("WARN", r.warn.toNat), ("ADDR", r.addr.toNat), ("DATA", r.data.toNat),
    ("COMP", r.comp.toNat), ("COMPV", r.compv.toNat), ("NIB", r.nib.toNat), ("OLEN", r.olen.toNat),
    ("OSYM[0]", r.osym[0].toNat), ("OSYM[1]", r.osym[1].toNat), ("OSYM[2]", r.osym[2].toNat),
    ("OSYM[3]", r.osym[3].toNat), ("OSYM[4]", r.osym[4].toNat), ("OSYM[5]", r.osym[5].toNat),
    ("OSYM[6]", r.osym[6].toNat), ("OSYM[7]", r.osym[7].toNat), ("ERR_INDEX", r.errIndex.toNat),
    ("ERR_CHAR", r.errChar.toNat), ("ERR_FIELD", r.errField.toNat), ("ERR_VALUE", r.errValue.toNat)]

/-- The fields a response is written with: the non-zero ones (R54). -/
def shownFields (r : Response) : List (String × Nat) := (responseFields r).filter fun f => f.2 != 0

end Sys2Proof.Machine
end

