-- ==== Sys2Proof/Machine/BitMap.lean ====
section
/-! DEFINITION. The code format's bit layout as the two tables of spec/30_encoding.md section 5 give it, bit by bit: R52
for the decoder and R53 for the encoder. The formulas the meanings use stand in Decoder.lean and Encoder.lean; the claims
say that the two agree. -/

namespace Sys2Proof.Machine

/-- The word with the given bits, the most significant first (R11). -/
def wordOf {w : Nat} (bits : Vector Bool w) : BitVec w := BitVec.ofFnLE fun i => bits[i.rev]

/-- ADDR[15:0] (R52). -/
def mapAddr (n : Slots) : Address :=
  wordOf #v[true, n[3].getLsbD 2, n[3].getLsbD 1, n[3].getLsbD 0,
    n[4].getLsbD 3, n[5].getLsbD 2, n[5].getLsbD 1, n[5].getLsbD 0,
    n[1].getLsbD 3, n[2].getLsbD 2, n[2].getLsbD 1, n[2].getLsbD 0,
    n[3].getLsbD 3, n[4].getLsbD 2, n[4].getLsbD 1, n[4].getLsbD 0]

/-- DATA[7:0] of a 6-symbol code (R52). -/
def mapData6 (n : Slots) : Byte :=
  wordOf #v[n[0].getLsbD 3, n[1].getLsbD 2, n[1].getLsbD 1, n[1].getLsbD 0,
    n[5].getLsbD 3, n[0].getLsbD 2, n[0].getLsbD 1, n[0].getLsbD 0]

/-- DATA[7:0] of an 8-symbol code (R52). -/
def mapData8 (n : Slots) : Byte :=
  wordOf #v[n[0].getLsbD 3, n[1].getLsbD 2, n[1].getLsbD 1, n[1].getLsbD 0,
    n[7].getLsbD 3, n[0].getLsbD 2, n[0].getLsbD 1, n[0].getLsbD 0]

/-- COMP[7:0] of an 8-symbol code (R52). -/
def mapComp8 (n : Slots) : Byte :=
  wordOf #v[n[6].getLsbD 3, n[7].getLsbD 2, n[7].getLsbD 1, n[7].getLsbD 0,
    n[5].getLsbD 3, n[6].getLsbD 2, n[6].getLsbD 1, n[6].getLsbD 0]

/-- WARN is NOT n[2][3] (R52). -/
def mapWarn (n : Slots) : Bool := !n[2].getLsbD 3

/-- The slots n[0..5] of ENCODE6, with A = `alt` (R53). -/
def mapSlots6 (alt : Bool) (a : Address) (d : Byte) : Vector Nibble 6 :=
  #v[wordOf #v[d.getLsbD 7, d.getLsbD 2, d.getLsbD 1, d.getLsbD 0],
    wordOf #v[a.getLsbD 7, d.getLsbD 6, d.getLsbD 5, d.getLsbD 4],
    wordOf #v[!alt, a.getLsbD 6, a.getLsbD 5, a.getLsbD 4],
    wordOf #v[a.getLsbD 3, a.getLsbD 14, a.getLsbD 13, a.getLsbD 12],
    wordOf #v[a.getLsbD 11, a.getLsbD 2, a.getLsbD 1, a.getLsbD 0],
    wordOf #v[d.getLsbD 3, a.getLsbD 10, a.getLsbD 9, a.getLsbD 8]]

/-- The slots n[0..7] of ENCODE8, with A = `alt` (R53). -/
def mapSlots8 (alt : Bool) (a : Address) (d c : Byte) : Slots :=
  #v[wordOf #v[d.getLsbD 7, d.getLsbD 2, d.getLsbD 1, d.getLsbD 0],
    wordOf #v[a.getLsbD 7, d.getLsbD 6, d.getLsbD 5, d.getLsbD 4],
    wordOf #v[!alt, a.getLsbD 6, a.getLsbD 5, a.getLsbD 4],
    wordOf #v[a.getLsbD 3, a.getLsbD 14, a.getLsbD 13, a.getLsbD 12],
    wordOf #v[a.getLsbD 11, a.getLsbD 2, a.getLsbD 1, a.getLsbD 0],
    wordOf #v[c.getLsbD 3, a.getLsbD 10, a.getLsbD 9, a.getLsbD 8],
    wordOf #v[c.getLsbD 7, c.getLsbD 2, c.getLsbD 1, c.getLsbD 0],
    wordOf #v[d.getLsbD 3, c.getLsbD 6, c.getLsbD 5, c.getLsbD 4]]

end Sys2Proof.Machine
end

