-- ==== Sys2Proof/Safety.lean ====
section
/-! DEFINITION. What counts as a safe run, in the terms the claims use: the shape every response has, the response a
request gets alone, and what a requester is owed and gets over a run. -/

namespace Sys2Proof.Machine

/-- `c` is a spelling of the symbol with nibble `n`: SYM_ROM holds its normalized form there (R21, R56). -/
abbrev Spells (roms : Roms) (c : Symbol) (n : Nibble) : Prop := symRead roms n = norm c

/-- `c` normalizes to a member of the alphabet (R56, R82). -/
abbrev InAlphabet (roms : Roms) (c : Symbol) : Prop := ∃ n : Nibble, Spells roms c n

/-- The seven legal values of CMD (R46). -/
def legalCommands : List CmdWord := [0x00, 0x01, 0x02, 0x03, 0x13, 0x0B, 0x1B]

/-- No result field is set (R44, R87). -/
def noResult (r : Response) : Bool :=
  !r.warn && r.addr == 0 && r.data == 0 && r.comp == 0 && !r.compv && r.nib == 0 && r.olen == 0 &&
    r.osym == Vector.replicate 8 0

/-- The error fields hold only what the status records, and ERR_FIELD is never 3 (R44, R50, R81 to R84, R87). -/
def errorFieldsFit (r : Response) : Bool :=
  (r.status == .invalidSymbol || (r.errIndex == 0 && r.errChar == 0)) &&
    (r.status == .outOfRange || r.errField == 0) && r.errField != 3 &&
    (r.status == .outOfRange || r.status == .invalidLength || r.errValue == 0)

/-- The output symbols fit OLEN, which is 0, 1, 6 or 8, and slots at or above it are 0 (R43, R44). -/
def outputFits (r : Response) : Bool :=
  (r.olen == 0 || r.olen == 1 || r.olen == 6 || r.olen == 8) &&
    decide (∀ i : Fin 8, r.olen.toNat ≤ i.val → r.osym[i] = 0)

/-- The shape of a response: no partial results, no stray values (R44, R87). -/
def wellShaped (r : Response) : Bool :=
  (r.status == .ok || noResult r) && errorFieldsFit r && outputFits r &&
    (r.compv || r.comp == 0)

/-- A safe state: a response on the outputs has its shape. -/
def State.safe (s : State) : Bool :=
  match s.response with
  | some r => wellShaped r
  | none => true

/-- The response a step's state delivers to a port, if it delivers one there. -/
def State.deliveredTo (s : State) (port : Nat) : List Response :=
  match s.response with
  | some r => if s.outPort = port then [r] else []
  | none => []

/-- The response a request gets alone: in a block with these tables, right after reset (R25, R36). -/
def aloneResponse (roms : Roms) (req : Request) : Response :=
  match perform req (State.resetWith roms) with
  | .next t => t.response.getD zeroResponse
  | .fault _ => zeroResponse
  | .refused _ => zeroResponse

/-- The responses a port is still owed, oldest first: one for each of its requests in flight (R37). -/
def State.owed (s : State) (port : Nat) : List Response :=
  (s.inflight.filter (fun e => e.port == port)).map (fun e => aloneResponse s.roms e.req)

/-- The responses to the requests that events present on a port, in order. -/
def presentedTo (roms : Roms) (port : Nat) : List Event → List Response
  | [] => []
  | .present p req :: es =>
    if p = port then aloneResponse roms req :: presentedTo roms port es else presentedTo roms port es
  | .complete _ :: es => presentedTo roms port es
  | .reset :: es => presentedTo roms port es

/-- The responses delivered to a port over `k` steps, in order. -/
def deliveries (port : Nat) : Nat → State → List Response
  | 0, _ => []
  | k + 1, s =>
    match step s with
    | .next t => t.deliveredTo port ++ deliveries port k t
    | .fault _ => []
    | .refused _ => []

end Sys2Proof.Machine
end

