-- ==== Sys2Proof/Certificates/Slice0/Obligations.lean ====
section
/-! DEFINITION. The statements for the provers. Each speaks of every state, hence of every legal ALPHABET (`s.roms`),
every queue and every schedule. `{ s with response := some r }` in a conclusion is a statement's result and its frame
at once: the response is `r`, and the tables, the queue, the port, the schedule and the counter are those of `s`. -/

open Sys2Proof Sys2Proof.Machine

/-! ### Requests and command words -/

/-- The seven words of the opcode table decode to their operations, with operands of zeros (R46). -/
def Obligations.TableWordsDecode : Prop :=
  decodeTableWord 8 0x00 = some (.symfor 0) ∧
  decodeTableWord 8 0x01 = some (.nibfor 0) ∧
  decodeTableWord 8 0x02 = some (.decode 0 #v[0, 0, 0, 0, 0, 0, 0, 0]) ∧
  decodeTableWord 8 0x03 = some (.encode6 0 0) ∧
  decodeTableWord 8 0x13 = some (.encode6Alt 0 0) ∧
  decodeTableWord 8 0x0B = some (.encode8 0 0 0) ∧
  decodeTableWord 8 0x1B = some (.encode8Alt 0 0 0)

/-- Decoding the bits of an encoded operation gives it back, for every operation with every operand value. -/
def Obligations.DecodeOfEncodeIsTheOperation : Prop :=
  ∀ i : Instr, decodeTableWord requestBits (encode i).toBits.toNat = some i

/-- Laying a request bundle end to end loses no bit of any field: the bundle is read back whole. -/
def Obligations.RequestBitsRoundTrip : Prop :=
  ∀ r : Request, Request.ofBits r.toBits = r

/-- A CMD outside the seven legal values gets ILLEGAL_OP, the status 7, with every other field 0, whatever the other
request fields hold; nothing else changes (R84, R47). -/
def Obligations.IllegalCommandGetsIllegalOp : Prop :=
  statusCode .illegalOp = 7 ∧ ∀ (req : Request) (s : State), req.cmd ∉ legalCommands →
    perform req s = .next { s with response := some { zeroResponse with status := .illegalOp } }

/-- A legal CMD performs the operation that is encoded with that very CMD. -/
def Obligations.LegalCommandPerformsItsOperation : Prop :=
  ∀ (req : Request) (s : State), req.cmd ∈ legalCommands →
    ∃ i : Instr, decode req = .ok i ∧ (encode i).cmd = req.cmd ∧ perform req s = exec i s

/-- A field an operation does not read cannot change its response (R48). -/
def Obligations.UnreadFieldsChangeNothing : Prop :=
  ∀ (req req' : Request) (s : State), req'.cmd = req.cmd →
    (req.cmd = 0x00 → req'.nibIn = req.nibIn) →
    (req.cmd = 0x01 → req'.isym[0] = req.isym[0]) →
    (req.cmd = 0x02 → req'.len = req.len ∧
      ((req.len = 6 ∨ req.len = 8) → ∀ i : Fin 8, i.val < req.len.toNat → req'.isym[i] = req.isym[i])) →
    (req.cmd ∈ [(0x03 : CmdWord), 0x13, 0x0B, 0x1B] → req'.aIn = req.aIn ∧ req'.dIn = req.dIn) →
    (req.cmd ∈ [(0x0B : CmdWord), 0x1B] → req'.cIn = req.cIn) →
    perform req' s = perform req s

/-! ### The tables -/

/-- Case normalization changes exactly the 26 codes 0x61..0x7A, each to the code 0x20 below it (R57). -/
def Obligations.NormFoldsLowerCaseOnly : Prop :=
  ∀ c : Symbol,
    (0x61 ≤ c.toNat → c.toNat ≤ 0x7A → (norm c).toNat + 0x20 = c.toNat) ∧
    (c.toNat < 0x61 ∨ 0x7A < c.toNat → norm c = c)

/-- Every entry of INV_ROM: valid with the index of the normalized code in SYM_ROM, or all 0 where there is none (R21). -/
def Obligations.InvRomIsTheFoldedInverse : Prop :=
  ∀ (roms : Roms) (c : Symbol),
    (∀ n : Nibble, roms.symRom[n.toNat] = norm c → roms.invRom[c.toNat] = { valid := true, nib := n }) ∧
    ((∀ n : Nibble, roms.symRom[n.toNat] ≠ norm c) → roms.invRom[c.toNat] = { valid := false, nib := 0 })

/-- SYM_ROM and INV_ROM agree in both directions, and every entry of SYM_ROM is its own normal form (R22). -/
def Obligations.TablesAgreeBothWays : Prop :=
  ∀ roms : Roms,
    (∀ i : Nibble, roms.invRom[(roms.symRom[i.toNat]).toNat] = { valid := true, nib := i }) ∧
    (∀ (c : Symbol) (i : Nibble), roms.invRom[c.toNat] = { valid := true, nib := i } →
      roms.symRom[i.toNat] = norm c) ∧
    (∀ i : Nibble, norm roms.symRom[i.toNat] = roms.symRom[i.toNat])

/-- The block is refused exactly when two entries of the ALPHABET are equal or one is a lower-case ASCII letter; when it
is built, SYM_ROM is the ALPHABET, and the entries of every built SYM_ROM are pairwise distinct (R20). R20 itself refuses
equal entries only; that the lower-case entry R6 rules out is refused in the same way is log entry 9, DEDUCED from R6, R95
and D4 of spec/92_eei_decisions.md. -/
def Obligations.IllegalAlphabetIsRefused : Prop :=
  (∀ v : Alphabet, Roms.build v = none ↔
    (∃ i j : Fin 16, i ≠ j ∧ v[i] = v[j]) ∨ ∃ i : Fin 16, 0x61 ≤ (v[i]).toNat ∧ (v[i]).toNat ≤ 0x7A) ∧
  (∀ (v : Alphabet) (roms : Roms), Roms.build v = some roms → roms.symRom = v) ∧
  (∀ (roms : Roms) (i j : Fin 16), i ≠ j → roms.symRom[i] ≠ roms.symRom[j])

/-! ### The lookups -/

/-- SYMFOR answers the table entry of its nibble in slot 0, for every nibble (R59). -/
def Obligations.SymforAnswersTheEntry : Prop :=
  ∀ (req : Request) (s : State), req.cmd = 0x00 →
    decode req = .ok (.symfor req.nibIn) ∧
    exec (.symfor req.nibIn) s = .next { s with
      response := some { zeroResponse with
        status := .ok, olen := 1, osym := #v[s.roms.symRom[req.nibIn.toNat], 0, 0, 0, 0, 0, 0, 0] } }

/-- NIBFOR answers the nibble of a symbol that normalizes to a member of the alphabet (R60). -/
def Obligations.NibforAnswersTheNibble : Prop :=
  ∀ (req : Request) (s : State) (n : Nibble), req.cmd = 0x01 → Spells s.roms req.isym[0] n →
    decode req = .ok (.nibfor req.isym[0]) ∧
    exec (.nibfor req.isym[0]) s = .next { s with
      response := some { zeroResponse with status := .ok, nib := n } }

/-- NIBFOR of a symbol outside the alphabet answers INVALID_SYMBOL with index 0 and the code as presented (R60, R82). -/
def Obligations.NibforRejectsOtherSymbols : Prop :=
  ∀ (sym : Symbol) (s : State), ¬ InAlphabet s.roms sym →
    exec (.nibfor sym) s = .next { s with
      response := some { zeroResponse with status := .invalidSymbol, errIndex := 0, errChar := sym } }

/-- NIBFOR of the symbol SYMFOR answered is the nibble SYMFOR was asked for (R60). -/
def Obligations.NibforUndoesSymfor : Prop :=
  ∀ (i : Nibble) (s t : State) (r : Response), exec (.symfor i) s = .next t → t.response = some r →
    exec (.nibfor r.osym[0]) t = .next { t with response := some { zeroResponse with nib := i } }

/-! ### DECODE -/

/-- A LEN other than 6 or 8 is reported, with LEN zero-extended as its value, before any symbol is looked at; the status
is 1, and no other request is answered with it (R62, R81). -/
def Obligations.DecodeRejectsOtherLengths : Prop :=
  statusCode .invalidLength = 1 ∧
  (∀ (len : BitVec 8) (isym : Symbols) (s : State), len ≠ 6 → len ≠ 8 →
    exec (.decode len isym) s = .next { s with
      response := some { zeroResponse with status := .invalidLength, errValue := len.setWidth 32 } }) ∧
  ∀ (req : Request) (s t : State) (r : Response), perform req s = .next t → t.response = some r →
    r.status = .invalidLength → req.cmd = 0x02 ∧ req.len ≠ 6 ∧ req.len ≠ 8

/-- With a legal LEN, the lowest slot whose symbol is not in the alphabet is reported, with its raw code (R63, R82). -/
def Obligations.DecodeRejectsTheFirstBadSymbol : Prop :=
  ∀ (len : BitVec 8) (isym : Symbols) (s : State) (k : Fin 8), (len = 6 ∨ len = 8) → k.val < len.toNat →
    (∀ i : Fin 8, i < k → InAlphabet s.roms isym[i]) → ¬ InAlphabet s.roms isym[k] →
    exec (.decode len isym) s = .next { s with
      response := some { zeroResponse with
        status := .invalidSymbol, errIndex := BitVec.ofNat 3 k.val, errChar := isym[k] } }

/-- A 6-symbol code: every output bit is the slot bit of the bit map, COMP is absent, WARN is NOT n[2][3] (R52, R65). -/
def Obligations.DecodeSixFollowsTheBitMap : Prop :=
  ∀ (req : Request) (s : State) (n : Slots), req.cmd = 0x02 → req.len = 6 →
    (∀ i : Fin 8, i.val < 6 → Spells s.roms req.isym[i] n[i]) →
    decode req = .ok (.decode 6 req.isym) ∧
    exec (.decode 6 req.isym) s = .next { s with
      response := some { zeroResponse with
        status := .ok, addr := mapAddr n, data := mapData6 n, comp := 0, compv := false, warn := mapWarn n } }

/-- An 8-symbol code: every output bit is the slot bit of the bit map and COMP is present (R52, R66). -/
def Obligations.DecodeEightFollowsTheBitMap : Prop :=
  ∀ (req : Request) (s : State) (n : Slots), req.cmd = 0x02 → req.len = 8 →
    (∀ i : Fin 8, Spells s.roms req.isym[i] n[i]) →
    decode req = .ok (.decode 8 req.isym) ∧
    exec (.decode 8 req.isym) s = .next { s with
      response := some { zeroResponse with
        status := .ok, addr := mapAddr n, data := mapData8 n, comp := mapComp8 n, compv := true,
        warn := mapWarn n } }

/-- WARN is 1 exactly in the OK response of a DECODE whose n[2] has bit 3 unset, and in no other response (R67). -/
def Obligations.WarnExactlyWhenSlotTwoBitThreeUnset : Prop :=
  ∀ (req : Request) (s t : State) (r : Response), perform req s = .next t → t.response = some r →
    (r.warn = true ↔ req.cmd = 0x02 ∧ r.status = .ok ∧
      ∃ n : Nibble, Spells s.roms req.isym[2] n ∧ n.getLsbD 3 = false)

/-- A successful DECODE always has ADDR[15] = 1, ADDR in [0x8000, 0xFFFF], and DATA and COMP in [0x00, 0xFF] (R68). -/
def Obligations.DecodedAddressInUpperHalf : Prop :=
  ∀ (len : BitVec 8) (isym : Symbols) (s t : State) (r : Response),
    exec (.decode len isym) s = .next t → t.response = some r → r.status = .ok →
    r.addr.getLsbD 15 = true ∧ 0x8000 ≤ r.addr.toNat ∧ r.addr.toNat ≤ 0xFFFF ∧
    r.data.toNat ≤ 0xFF ∧ (r.compv = true → r.comp.toNat ≤ 0xFF)

/-- Two code strings whose symbols have the same normal forms are both accepted or both not, and an accepted one gets the
very response of the other. -/
def Obligations.DecodeIgnoresCase : Prop :=
  ∀ (len : BitVec 8) (isym isym' : Symbols) (s t t' : State),
    (∀ i : Fin 8, norm isym'[i] = norm isym[i]) →
    exec (.decode len isym) s = .next t → exec (.decode len isym') s = .next t' →
    ∀ r r' : Response, t.response = some r → t'.response = some r' →
      r'.status = r.status ∧ (r.status = .ok → r' = r)

/-- Two accepted code strings of one length give the same patch record exactly when their symbols differ at most in
slot 2, and there at most in bit 3 of the nibble; the whole responses are then equal but for WARN (R69). -/
def Obligations.SameRecordOnlyUpToSlotTwoBitThree : Prop :=
  ∀ (len : BitVec 8) (isym isym' : Symbols) (n n' : Slots) (s t t' : State) (r r' : Response),
    (len = 6 ∨ len = 8) →
    (∀ i : Fin 8, i.val < len.toNat → Spells s.roms isym[i] n[i]) →
    (∀ i : Fin 8, i.val < len.toNat → Spells s.roms isym'[i] n'[i]) →
    exec (.decode len isym) s = .next t → t.response = some r →
    exec (.decode len isym') s = .next t' → t'.response = some r' →
    ((r.addr = r'.addr ∧ r.data = r'.data ∧ r.comp = r'.comp) ↔
      ((∀ i : Fin 8, i.val < len.toNat → i.val ≠ 2 → norm isym[i] = norm isym'[i]) ∧
        n[2] &&& 0x7 = n'[2] &&& 0x7)) ∧
    ((r.addr = r'.addr ∧ r.data = r'.data ∧ r.comp = r'.comp) → r = { r' with warn := r.warn })

/-! ### ENCODE -/

/-- With operands in range, ENCODE6 and ENCODE6.ALT answer six symbols, each the table entry of its slot in the bit map,
and 0 in the other slots (R53, R73, R74). -/
def Obligations.EncodeSixFollowsTheBitMap : Prop :=
  ∀ (a d : Operand) (s : State), 0x8000 ≤ a.toInt → a.toInt ≤ 0xFFFF → 0 ≤ d.toInt → d.toInt ≤ 0xFF →
    (∀ alt : Bool, ∃ osym : Symbols,
      (∀ i : Fin 6, osym[i] = symRead s.roms (mapSlots6 alt (a.setWidth 16) (d.setWidth 8))[i]) ∧
      osym[6] = 0 ∧ osym[7] = 0 ∧
      exec (if alt then .encode6Alt a d else .encode6 a d) s = .next { s with
        response := some { zeroResponse with status := .ok, olen := 6, osym := osym } })

/-- With operands in range, ENCODE8 and ENCODE8.ALT answer eight symbols, each the table entry of its slot in the bit map
(R53, R73, R75). -/
def Obligations.EncodeEightFollowsTheBitMap : Prop :=
  ∀ (a d c : Operand) (s : State), 0x8000 ≤ a.toInt → a.toInt ≤ 0xFFFF → 0 ≤ d.toInt → d.toInt ≤ 0xFF →
    0 ≤ c.toInt → c.toInt ≤ 0xFF →
    (∀ alt : Bool, ∃ osym : Symbols,
      (∀ i : Fin 8, osym[i] = symRead s.roms (mapSlots8 alt (a.setWidth 16) (d.setWidth 8) (c.setWidth 8))[i]) ∧
      exec (if alt then .encode8Alt a d c else .encode8 a d c) s = .next { s with
        response := some { zeroResponse with status := .ok, olen := 8, osym := osym } })

/-- An operand outside its interval, compared as a signed 32-bit value, is reported with its field and all its bits:
address first, then data, then, for ENCODE8 only, comp (R83, R70). -/
def Obligations.EncodeReportsTheFirstOperandOutOfRange : Prop :=
  ∀ (a d c : Operand) (s : State) (i : Instr),
    i = .encode6 a d ∨ i = .encode6Alt a d ∨ i = .encode8 a d c ∨ i = .encode8Alt a d c →
    ((a.toInt < 0x8000 ∨ 0xFFFF < a.toInt) →
      exec i s = .next { s with
        response := some { zeroResponse with status := .outOfRange, errField := 0, errValue := a } }) ∧
    (0x8000 ≤ a.toInt → a.toInt ≤ 0xFFFF → (d.toInt < 0 ∨ 0xFF < d.toInt) →
      exec i s = .next { s with
        response := some { zeroResponse with status := .outOfRange, errField := 1, errValue := d } }) ∧
    (0x8000 ≤ a.toInt → a.toInt ≤ 0xFFFF → 0 ≤ d.toInt → d.toInt ≤ 0xFF → (c.toInt < 0 ∨ 0xFF < c.toInt) →
      (i = .encode8 a d c ∨ i = .encode8Alt a d c) →
      exec i s = .next { s with
        response := some { zeroResponse with status := .outOfRange, errField := 2, errValue := c } })

/-- The A bit changes one slot bit only: with A = 1 the symbol of slot 2 is the entry of the same nibble with bit 3
cleared, every other part of the response is the same, and an error is the same error (R72). -/
def Obligations.AltChangesSlotTwoBitThreeOnly : Prop :=
  ∀ (a d c : Operand) (s t t' : State) (i i' : Instr) (r r' : Response),
    (i = .encode6 a d ∧ i' = .encode6Alt a d) ∨ (i = .encode8 a d c ∧ i' = .encode8Alt a d c) →
    exec i s = .next t → t.response = some r → exec i' s = .next t' → t'.response = some r' →
    { r' with osym := r.osym } = r ∧
    (∀ k : Fin 8, k.val ≠ 2 → r'.osym[k] = r.osym[k]) ∧
    (r.status ≠ .ok → r' = r) ∧
    (r.status = .ok → ∃ n : Nibble, n.getLsbD 3 = false ∧
      r'.osym[2] = symRead s.roms n ∧ r.osym[2] = symRead s.roms (n ||| 0x8))

/-- For operands in range, the first six symbols of ENCODE8 are those of ENCODE6 exactly when bit 3 of data equals bit 3
of comp: the two layouts differ in n[5][3] (R75, R79). -/
def Obligations.LayoutsShareSixSymbolsOnlyIfBitThreesAgree : Prop :=
  ∀ (a d c : Operand) (s t t' : State) (r r' : Response),
    exec (.encode6 a d) s = .next t → t.response = some r → r.status = .ok →
    exec (.encode8 a d c) s = .next t' → t'.response = some r' → r'.status = .ok →
    ((∀ k : Fin 8, k.val < 6 → r'.osym[k] = r.osym[k]) ↔ d.getLsbD 3 = c.getLsbD 3)

/-! ### Round trips -/

/-- ENCODE6 of a patch record succeeds, and DECODE of its six symbols gives the record back, with WARN = A (R76). -/
def Obligations.DecodeAfterEncodeSix : Prop :=
  ∀ (address : Address) (data : Byte) (alt : Bool) (s : State), 0x8000 ≤ address.toNat →
    ∃ (t : State) (r : Response),
      exec (if alt then .encode6Alt (address.setWidth 32) (data.setWidth 32)
        else .encode6 (address.setWidth 32) (data.setWidth 32)) s = .next t ∧
      t.response = some r ∧ r.status = .ok ∧ r.olen = 6 ∧
      exec (.decode 6 r.osym) t = .next { t with
        response := some { zeroResponse with
          status := .ok, addr := address, data := data, compv := false, warn := alt } }

/-- ENCODE8 of a patch record succeeds, and DECODE of its eight symbols gives the record back, with WARN = A (R77). -/
def Obligations.DecodeAfterEncodeEight : Prop :=
  ∀ (address : Address) (data comp : Byte) (alt : Bool) (s : State), 0x8000 ≤ address.toNat →
    ∃ (t : State) (r : Response),
      exec (if alt then .encode8Alt (address.setWidth 32) (data.setWidth 32) (comp.setWidth 32)
        else .encode8 (address.setWidth 32) (data.setWidth 32) (comp.setWidth 32)) s = .next t ∧
      t.response = some r ∧ r.status = .ok ∧ r.olen = 8 ∧
      exec (.decode 8 r.osym) t = .next { t with
        response := some { zeroResponse with
          status := .ok, addr := address, data := data, comp := comp, compv := true, warn := alt } }

/-- Re-encoding what DECODE made of an accepted code gives the normal form of the code, symbol for symbol, when
A = NOT n[2][3]; with A = 0 it gives the normal form with slot 2 replaced by the entry of `n[2] OR 0x8`, which is the
normal form only when n[2][3] = 1 (R78). -/
def Obligations.ReencodingGivesTheNormalForm : Prop :=
  ∀ (len : BitVec 8) (isym : Symbols) (n : Slots) (s t : State) (r : Response),
    (len = 6 ∨ len = 8) → (∀ i : Fin 8, i.val < len.toNat → Spells s.roms isym[i] n[i]) →
    exec (.decode len isym) s = .next t → t.response = some r →
    ∀ alt : Bool, ∃ (t' : State) (r' : Response),
      exec (if len = 6 then
          (if alt then .encode6Alt (r.addr.setWidth 32) (r.data.setWidth 32)
            else .encode6 (r.addr.setWidth 32) (r.data.setWidth 32))
        else
          (if alt then .encode8Alt (r.addr.setWidth 32) (r.data.setWidth 32) (r.comp.setWidth 32)
            else .encode8 (r.addr.setWidth 32) (r.data.setWidth 32) (r.comp.setWidth 32))) t = .next t' ∧
      t'.response = some r' ∧ r'.status = .ok ∧ r'.olen.toNat = len.toNat ∧
      (∀ i : Fin 8, i.val < len.toNat → i.val ≠ 2 → r'.osym[i] = norm isym[i]) ∧
      (alt = !n[2].getLsbD 3 → r'.osym[2] = norm isym[2]) ∧
      (alt = false → r'.osym[2] = symRead s.roms (n[2] ||| 0x8) ∧
        (r'.osym[2] = norm isym[2] ↔ n[2].getLsbD 3 = true))

/-! ### Responses and errors -/

/-- STATUS codes are 0, 1, 2, 3 or 7, and each error comes only from the operations R49 names for it (R49). -/
def Obligations.EachStatusFromItsOperations : Prop :=
  ∀ (req : Request) (s t : State) (r : Response), perform req s = .next t → t.response = some r →
    (statusCode r.status = 0 → r.status = .ok ∧ req.cmd ∈ legalCommands) ∧
    (statusCode r.status = 1 → r.status = .invalidLength ∧ req.cmd = 0x02) ∧
    (statusCode r.status = 2 → r.status = .invalidSymbol ∧ req.cmd ∈ [(0x01 : CmdWord), 0x02]) ∧
    (statusCode r.status = 3 → r.status = .outOfRange ∧ req.cmd ∈ [(0x03 : CmdWord), 0x13, 0x0B, 0x1B]) ∧
    (statusCode r.status = 7 ↔ req.cmd ∉ legalCommands) ∧
    statusCode r.status ≠ 4 ∧ statusCode r.status ≠ 5 ∧ statusCode r.status ≠ 6

/-- Whatever a step delivers has the shape of a response: an error carries no result, a success no error value, unset
fields are 0, OLEN is 0, 1, 6 or 8 and ERR_FIELD is never 3 (R44, R50, R87). -/
def Obligations.EveryStepDeliversAWellShapedResponse : Prop :=
  ∀ s t : State, step s = .next t → State.safe t = true

/-- The state after reset is safe in the same sense. -/
def Obligations.ResetStateIsSafe : Prop := ∀ roms : Roms, State.safe (State.resetWith roms) = true

/-- Every symbol a response carries is an entry of the ALPHABET as stored, never a lower-case letter (R58). -/
def Obligations.OutputSymbolsAreStoredEntries : Prop :=
  ∀ (req : Request) (s t : State) (r : Response) (k : Fin 8),
    perform req s = .next t → t.response = some r → k.val < r.olen.toNat →
    ∃ n : Nibble, r.osym[k] = s.roms.symRom[n.toNat] ∧
      ((r.osym[k]).toNat < 0x61 ∨ 0x7A < (r.osym[k]).toNat)

/-- A response is a function of its request and the tables: two blocks with the same tables answer it alike, whatever
their queues, earlier responses and schedules are (R25). -/
def Obligations.ResponseDependsOnRequestAndTablesOnly : Prop :=
  ∀ (req : Request) (s s' t t' : State), s.roms = s'.roms →
    perform req s = .next t → perform req s' = .next t' →
    t.response = t'.response ∧ t.response ≠ none

/-- A request, in error or not, changes nothing but the response outputs, so the next request gets the response it would
have got without it (R80, R88). -/
def Obligations.NoRequestLeavesATrace : Prop :=
  ∀ (req next : Request) (s t u u' : State), perform req s = .next t →
    perform next t = .next u → perform next s = .next u' →
    { t with response := s.response } = s ∧ u = u'

/-! ### Code strings and the request notation -/

/-- `DECODE "<s>"` of any ASCII string of at most 255 characters answers OK exactly when the length is 6 or 8 and each
character normalizes to a member of the alphabet (R56). -/
def Obligations.CodeStringValidity : Prop :=
  ∀ (str : List Char), (Asm.decodeString str).wf = true →
    ∃ req : Request, assemble (.decodeString str) = some req ∧
      ∀ s : State, ∃ r : Response, perform req s = .next { s with response := some r } ∧
        (r.status = .ok ↔ (str.length = 6 ∨ str.length = 8) ∧
          ∀ ch ∈ str, InAlphabet s.roms (BitVec.ofNat 8 ch.toNat))

/-- The fields a line sets hold its numbers, or the ASCII codes of its characters, and every other field is 0: every form
of line of R54, with every number and character the notation takes (the ranges are log entry 7). -/
def Obligations.AssembledLinesSetTheirFields : Prop :=
  (∀ nib : Int, 0 ≤ nib → nib ≤ 15 → ∃ req, assemble (.symfor nib) = some req ∧
    (req.nibIn.toNat : Int) = nib ∧ req = { Request.zero with cmd := 0x00, nibIn := req.nibIn }) ∧
  (∀ code : Int, 0 ≤ code → code ≤ 255 → ∃ req, assemble (.nibforCode code) = some req ∧
    ((req.isym[0]).toNat : Int) = code ∧
    req = { Request.zero with cmd := 0x01, isym := #v[req.isym[0], 0, 0, 0, 0, 0, 0, 0] }) ∧
  (∀ ch : Char, ch.toNat < 128 → ∃ req, assemble (.nibforChar ch) = some req ∧
    (req.isym[0]).toNat = ch.toNat ∧
    req = { Request.zero with cmd := 0x01, isym := #v[req.isym[0], 0, 0, 0, 0, 0, 0, 0] }) ∧
  (∀ str : List Char, str.length ≤ 255 → (∀ ch ∈ str, ch.toNat < 128) →
    ∃ req, assemble (.decodeString str) = some req ∧ req.len.toNat = str.length ∧
      (∀ (i : Fin 8) (h : i.val < str.length), (req.isym[i]).toNat = (str[i.val]).toNat) ∧
      (∀ i : Fin 8, str.length ≤ i.val → req.isym[i] = 0) ∧
      req = { Request.zero with cmd := 0x02, len := req.len, isym := req.isym }) ∧
  (∀ (n : Int) (codes : List Int), 0 ≤ n → n ≤ 255 → codes.length = 8 → (∀ c ∈ codes, 0 ≤ c ∧ c ≤ 255) →
    ∃ req, assemble (.decodeRaw n codes) = some req ∧ (req.len.toNat : Int) = n ∧
      (∀ i : Fin 8, codes[i.val]? = some ((req.isym[i]).toNat : Int)) ∧
      req = { Request.zero with cmd := 0x02, len := req.len, isym := req.isym }) ∧
  (∀ a d : Int, -2 ^ 31 ≤ a → a < 2 ^ 31 → -2 ^ 31 ≤ d → d < 2 ^ 31 →
    ∃ req req', assemble (.encode6 a d) = some req ∧ assemble (.encode6Alt a d) = some req' ∧
      req.aIn.toInt = a ∧ req.dIn.toInt = d ∧
      req = { Request.zero with cmd := 0x03, aIn := req.aIn, dIn := req.dIn } ∧
      req' = { req with cmd := 0x13 }) ∧
  (∀ a d c : Int, -2 ^ 31 ≤ a → a < 2 ^ 31 → -2 ^ 31 ≤ d → d < 2 ^ 31 → -2 ^ 31 ≤ c → c < 2 ^ 31 →
    ∃ req req', assemble (.encode8 a d c) = some req ∧ assemble (.encode8Alt a d c) = some req' ∧
      req.aIn.toInt = a ∧ req.dIn.toInt = d ∧ req.cIn.toInt = c ∧
      req = { Request.zero with cmd := 0x0B, aIn := req.aIn, dIn := req.dIn, cIn := req.cIn } ∧
      req' = { req with cmd := 0x1B })

/-- The pseudo-instructions stand for the operations R55 names, and no other line is a pseudo-instruction (R55). -/
def Obligations.PseudoInstructionsExpand : Prop :=
  (∀ a d c : Int,
    assemble (.encode a d none) = assemble (.encode6 a d) ∧
    assemble (.encode a d (some c)) = assemble (.encode8 a d c) ∧
    assemble (.encodeAlt a d none) = assemble (.encode6Alt a d) ∧
    assemble (.encodeAlt a d (some c)) = assemble (.encode8Alt a d c)) ∧
  ∀ line : Asm, (∀ (a d : Int) (c : Option Int), line ≠ .encode a d c ∧ line ≠ .encodeAlt a d c) →
    expand line = line

/-- Every well-formed line asks for one of the seven operations. -/
def Obligations.WellFormedLinesAssembleToLegalRequests : Prop :=
  ∀ line : Asm, line.wf = true →
    ∃ (req : Request) (i : Instr), assemble line = some req ∧ decode req = .ok i ∧ req.cmd ∈ legalCommands

/-! ### Steps, reset and order -/

/-- With nothing scheduled, a step performs the oldest request in flight: it leaves the queue, its port is the one
answered, the outputs are cleared, and the rest is `exec` of the decoded operation, or ILLEGAL_OP. -/
def Obligations.StepPerformsTheOldestRequest : Prop :=
  ∀ (s : State) (e : InFlight) (rest : List InFlight), s.schedule = [] → s.inflight = e :: rest →
    (∀ i : Instr, decode e.req = .ok i →
      step s = exec i { s with
        inflight := rest, outPort := e.port, response := none, freeIdx := s.freeIdx + 1 }) ∧
    (∀ why : Illegal, decode e.req = .error why →
      step s = .next { s with
        inflight := rest, outPort := e.port, freeIdx := s.freeIdx + 1,
        response := some { zeroResponse with status := .illegalOp } })

/-- When a response of a port comes due, the step performs that port's oldest request, and the others keep their places;
where the port has no request in flight, nothing is delivered (log entry 3). -/
def Obligations.CompletionPerformsThePortsOldestRequest : Prop :=
  ∀ (s : State) (port : Nat) (es : List Event), s.schedule = .complete port :: es →
    (∀ (e : InFlight) (before after : List InFlight), s.inflight = before ++ e :: after → e.port = port →
      (∀ x ∈ before, x.port ≠ port) →
      step s = perform e.req { s with
        schedule := es, inflight := before ++ after, outPort := port, response := none,
        freeIdx := s.freeIdx + 1 }) ∧
    ((∀ x ∈ s.inflight, x.port ≠ port) →
      step s = .next { s with schedule := es, response := none, freeIdx := s.freeIdx + 1 })

/-- A request that is presented is accepted in every state: it joins the queue last, and nothing is delivered. -/
def Obligations.PresentedRequestIsAlwaysAccepted : Prop :=
  ∀ (s : State) (port : Nat) (req : Request) (es : List Event), s.schedule = .present port req :: es →
    step s = .next { s with
      schedule := es, inflight := s.inflight ++ [{ port := port, req := req }], response := none,
      freeIdx := s.freeIdx + 1 }

/-- Reset discards every request in flight without a response, for every port, and leaves both tables as they are
(R92, R93). -/
def Obligations.ResetDiscardsRequestsAndKeepsTables : Prop :=
  ∀ (s : State) (es : List Event), s.schedule = .reset :: es →
    ∃ t : State, step s = .next t ∧ t.roms = s.roms ∧ t.inflight = [] ∧ t.response = none ∧
      t.schedule = es ∧ ∀ port : Nat, t.owed port = [] ∧ t.deliveredTo port = []

/-- What a block holds after reset, and that `State.reset` is built with the default ALPHABET, the model's choice among
the legal ones (log entry 1). -/
def Obligations.ResetStateContents : Prop :=
  (∀ roms : Roms, (State.resetWith roms).roms = roms ∧ (State.resetWith roms).inflight = [] ∧
    (State.resetWith roms).response = none) ∧
  State.reset.roms.symRom = Config.defaultAlphabet ∧
  Roms.build Config.defaultAlphabet = some State.reset.roms

/-- Every step of every state answers a next state: no error, and no request, stops the block (R80). -/
def Obligations.EveryStepAnswersANextState : Prop := ∀ s : State, ∃ t : State, step s = .next t

/-- No step, and so no run of steps, changes SYM_ROM or INV_ROM (R30). -/
def Obligations.TablesNeverChange : Prop :=
  (∀ s t : State, step s = .next t → t.roms = s.roms) ∧
  ∀ (k : Nat) (s t : State), Sys2Proof.core.run k s = .next t → t.roms = s.roms

/-- The word `withFetchWord` places is what the very next step performs, and the rest of the state is as before
(log entry 5). -/
def Obligations.PlacedWordIsPerformedNext : Prop :=
  ∀ (s : State) (nbits w : Nat) (i : Instr), decodeTableWord nbits w = some i →
    step (s.withFetchWord nbits w) =
      exec i { s with outPort := 0, response := none, freeIdx := s.freeIdx + 1 }

/-- Over any run without a reset, what a port gets and is still owed is what it was owed and what it presented, in that
order: exactly one response per accepted request, in the order of acceptance, each the response that the request gets
alone, whatever the other ports do (R37, R36). -/
def Obligations.EachRequesterGetsItsResponsesInOrder : Prop :=
  ∀ (k : Nat) (s t : State) (port : Nat), Event.reset ∉ s.schedule.take k →
    Sys2Proof.core.run k s = .next t →
    deliveries port k s ++ t.owed port = s.owed port ++ presentedTo s.roms port (s.schedule.take k)

/-- With nothing scheduled, as many steps as there are requests in flight answer all of them, each port in order. -/
def Obligations.QueueDrainsInAsManySteps : Prop :=
  ∀ s : State, s.schedule = [] →
    ∃ t : State, Sys2Proof.core.run s.inflight.length s = .next t ∧ t.inflight = [] ∧
      ∀ port : Nat, deliveries port s.inflight.length s = s.owed port

/-- A delivered response is what its requester reads on its lines (R43). -/
def Obligations.LinesCarryTheDeliveredResponse : Prop :=
  ∀ (s : State) (e : InFlight) (rest : List InFlight), s.schedule = [] → s.inflight = e :: rest →
    ∃ t : State, step s = .next t ∧ t.lines e.port = aloneResponse s.roms e.req
end

