-- ==== Sys2Proof/Laws/Alphabet.lean ====
section
/-! SUPPORT. The two tables: how an entry is read, and what a legal ALPHABET gives. -/

namespace Sys2Proof.Machine

theorem deriveInvRom_getElem (sym : Alphabet) (k : Nat) (h : k < 256) :
    (deriveInvRom sym)[k] = invEntryOf sym (BitVec.ofNat 8 k) := by
  simp [deriveInvRom]

/-- Reading INV_ROM gives the entry derived from SYM_ROM (R21). -/
theorem invRead_eq (roms : Roms) (c : Symbol) : invRead roms c = invEntryOf roms.symRom c := by
  have h : ∀ (v : Vector InvEntry 256), v = deriveInvRom roms.symRom →
      v[c.toNat]'c.isLt = invEntryOf roms.symRom c := by
    rintro v rfl
    simp [deriveInvRom_getElem]
  exact h _ roms.derived

theorem alphabetLegal_iff (sym : Alphabet) :
    alphabetLegal sym = true ↔ sym.toList.Nodup ∧ ∀ c ∈ sym.toList, isLower c = false := by
  simp only [alphabetLegal, Bool.and_eq_true, decide_eq_true_eq, List.all_eq_true, Bool.not_eq_true']

/-- A symbol that is no lower-case letter is its own normal form (R57). -/
theorem norm_of_not_lower {c : Symbol} (h : isLower c = false) : norm c = c := by simp [norm, h]

theorem Roms.symRom_not_lower (roms : Roms) (i : Nat) (h : i < 16) : isLower (roms.symRom[i]) = false :=
  ((alphabetLegal_iff _).1 roms.legal).2 _ (by simp)

theorem Roms.symRom_injective (roms : Roms) {i j : Nat} (hi : i < 16) (hj : j < 16)
    (h : roms.symRom[i] = roms.symRom[j]) : i = j := by
  have hn := ((alphabetLegal_iff _).1 roms.legal).1
  have := (List.Nodup.getElem_inj_iff hn (i := i) (j := j) (hi := by simpa) (hj := by simpa)).1 (by simpa using h)
  exact this

end Sys2Proof.Machine
end

