-- ==== Sys2Proof/Laws/State.lean ====
section
/-! SUPPORT. What each update of the state does to each field, one lemma per field per update. -/

namespace Sys2Proof.Machine

@[simp] theorem State.respond_roms (s : State) (r : Response) : (s.respond r).roms = s.roms := rfl
@[simp] theorem State.respond_inflight (s : State) (r : Response) : (s.respond r).inflight = s.inflight := rfl
@[simp] theorem State.respond_outPort (s : State) (r : Response) : (s.respond r).outPort = s.outPort := rfl
@[simp] theorem State.respond_response (s : State) (r : Response) : (s.respond r).response = some r := rfl
@[simp] theorem State.respond_schedule (s : State) (r : Response) : (s.respond r).schedule = s.schedule := rfl
@[simp] theorem State.respond_freeIdx (s : State) (r : Response) : (s.respond r).freeIdx = s.freeIdx := rfl

@[simp] theorem State.raise_roms (s : State) (e : ErrorInfo) : (s.raise e).roms = s.roms := rfl
@[simp] theorem State.raise_inflight (s : State) (e : ErrorInfo) : (s.raise e).inflight = s.inflight := rfl
@[simp] theorem State.raise_outPort (s : State) (e : ErrorInfo) : (s.raise e).outPort = s.outPort := rfl
@[simp] theorem State.raise_response (s : State) (e : ErrorInfo) : (s.raise e).response = some (errorResponse e) := rfl
@[simp] theorem State.raise_schedule (s : State) (e : ErrorInfo) : (s.raise e).schedule = s.schedule := rfl
@[simp] theorem State.raise_freeIdx (s : State) (e : ErrorInfo) : (s.raise e).freeIdx = s.freeIdx := rfl

@[simp] theorem State.conclude_roms (s : State) (x : Except ErrorInfo Response) : (s.conclude x).roms = s.roms := rfl
@[simp] theorem State.conclude_inflight (s : State) (x : Except ErrorInfo Response) : (s.conclude x).inflight = s.inflight := rfl
@[simp] theorem State.conclude_outPort (s : State) (x : Except ErrorInfo Response) : (s.conclude x).outPort = s.outPort := rfl
@[simp] theorem State.conclude_response (s : State) (x : Except ErrorInfo Response) : (s.conclude x).response = some (outcomeResponse x) := rfl
@[simp] theorem State.conclude_schedule (s : State) (x : Except ErrorInfo Response) : (s.conclude x).schedule = s.schedule := rfl
@[simp] theorem State.conclude_freeIdx (s : State) (x : Except ErrorInfo Response) : (s.conclude x).freeIdx = s.freeIdx := rfl

@[simp] theorem State.begin_roms (s : State) : (s.begin).roms = s.roms := rfl
@[simp] theorem State.begin_inflight (s : State) : (s.begin).inflight = s.inflight := rfl
@[simp] theorem State.begin_outPort (s : State) : (s.begin).outPort = s.outPort := rfl
@[simp] theorem State.begin_response (s : State) : (s.begin).response = none := rfl
@[simp] theorem State.begin_schedule (s : State) : (s.begin).schedule = s.schedule := rfl
@[simp] theorem State.begin_freeIdx (s : State) : (s.begin).freeIdx = s.freeIdx + 1 := rfl

@[simp] theorem State.accept_roms (s : State) (port : Nat) (req : Request) : (s.accept port req).roms = s.roms := rfl
@[simp] theorem State.accept_inflight (s : State) (port : Nat) (req : Request) : (s.accept port req).inflight = s.inflight ++ [{ port := port, req := req }] := rfl
@[simp] theorem State.accept_outPort (s : State) (port : Nat) (req : Request) : (s.accept port req).outPort = s.outPort := rfl
@[simp] theorem State.accept_response (s : State) (port : Nat) (req : Request) : (s.accept port req).response = s.response := rfl
@[simp] theorem State.accept_schedule (s : State) (port : Nat) (req : Request) : (s.accept port req).schedule = s.schedule := rfl
@[simp] theorem State.accept_freeIdx (s : State) (port : Nat) (req : Request) : (s.accept port req).freeIdx = s.freeIdx := rfl

@[simp] theorem State.applyReset_roms (s : State) : (s.applyReset).roms = s.roms := rfl
@[simp] theorem State.applyReset_inflight (s : State) : (s.applyReset).inflight = [] := rfl
@[simp] theorem State.applyReset_outPort (s : State) : (s.applyReset).outPort = s.outPort := rfl
@[simp] theorem State.applyReset_response (s : State) : (s.applyReset).response = none := rfl
@[simp] theorem State.applyReset_schedule (s : State) : (s.applyReset).schedule = s.schedule := rfl
@[simp] theorem State.applyReset_freeIdx (s : State) : (s.applyReset).freeIdx = s.freeIdx := rfl

@[simp] theorem State.placeNext_roms (s : State) (req : Request) : (s.placeNext req).roms = s.roms := rfl
@[simp] theorem State.placeNext_inflight (s : State) (req : Request) : (s.placeNext req).inflight = { port := 0, req := req } :: s.inflight := rfl
@[simp] theorem State.placeNext_outPort (s : State) (req : Request) : (s.placeNext req).outPort = s.outPort := rfl
@[simp] theorem State.placeNext_response (s : State) (req : Request) : (s.placeNext req).response = s.response := rfl
@[simp] theorem State.placeNext_schedule (s : State) (req : Request) : (s.placeNext req).schedule = .complete 0 :: s.schedule := rfl
@[simp] theorem State.placeNext_freeIdx (s : State) (req : Request) : (s.placeNext req).freeIdx = s.freeIdx := rfl

@[simp] theorem State.resetWith_roms (roms : Roms) : (State.resetWith roms).roms = roms := rfl
@[simp] theorem State.resetWith_inflight (roms : Roms) : (State.resetWith roms).inflight = [] := rfl
@[simp] theorem State.resetWith_outPort (roms : Roms) : (State.resetWith roms).outPort = 0 := rfl
@[simp] theorem State.resetWith_response (roms : Roms) : (State.resetWith roms).response = none := rfl
@[simp] theorem State.resetWith_schedule (roms : Roms) : (State.resetWith roms).schedule = [] := rfl
@[simp] theorem State.resetWith_freeIdx (roms : Roms) : (State.resetWith roms).freeIdx = 0 := rfl

end Sys2Proof.Machine
end

