-- ==== Sys2Proof/Laws/Ops.lean ====
section
/-! SUPPORT. One lemma per shared operation, saying once everything it can do. -/

namespace Sys2Proof.Machine

/-- A lookup of several symbols succeeds exactly when every symbol is found, and then gives their nibbles in order. -/
theorem lookupFrom_eq_ok (roms : Roms) (cs : List Symbol) (i : Nat) (ns : List Nibble) :
    lookupFrom roms i cs = .ok ns ↔
      (∀ c ∈ cs, (invRead roms c).valid = true) ∧ ns = cs.map fun c => (invRead roms c).nib := by
  induction cs generalizing i ns with
  | nil => simp only [lookupFrom, Except.ok.injEq, List.not_mem_nil, false_imp_iff, implies_true, true_and, List.map_nil]; exact eq_comm
  | cons c cs ih =>
    by_cases hc : (invRead roms c).valid = true
    · cases hr : lookupFrom roms (i + 1) cs with
      | ok ms =>
        have h := (ih (i + 1) ms).1 hr
        simp only [lookupFrom, hc, hr, if_true, Except.ok.injEq, List.mem_cons, forall_eq_or_imp, List.map_cons]
        rw [h.2]
        constructor
        · rintro rfl; exact ⟨⟨trivial, h.1⟩, rfl⟩
        · rintro ⟨-, rfl⟩; rfl
      | error e =>
        simp only [lookupFrom, hc, hr, if_true, reduceCtorEq, List.mem_cons, forall_eq_or_imp, false_iff]
        rintro ⟨⟨-, h⟩, -⟩
        have := (ih (i + 1) _).2 ⟨h, rfl⟩
        simp [hr] at this
    · simp [lookupFrom, hc]

/-- A lookup of several symbols fails exactly at the first symbol that is not found (R63). -/
theorem lookupFrom_eq_error (roms : Roms) (cs : List Symbol) (i : Nat) (e : ErrorInfo) :
    lookupFrom roms i cs = .error e ↔
      ∃ before c after, cs = before ++ c :: after ∧ (∀ x ∈ before, (invRead roms x).valid = true) ∧
        (invRead roms c).valid = false ∧ e = .invalidSymbol (BitVec.ofNat 3 (i + before.length)) c := by
  induction cs generalizing i with
  | nil => simp [lookupFrom]
  | cons c cs ih =>
    by_cases hc : (invRead roms c).valid = true
    · have hstep : lookupFrom roms i (c :: cs) = .error e ↔ lookupFrom roms (i + 1) cs = .error e := by
        simp only [lookupFrom, hc, if_true]
        split <;> simp_all
      rw [hstep, ih]
      constructor
      · rintro ⟨b, x, a, rfl, hb, hx, rfl⟩
        exact ⟨c :: b, x, a, rfl, by simpa [hc] using hb, hx, by simp [Nat.add_assoc, Nat.add_comm 1]⟩
      · rintro ⟨b, x, a, heq, hb, hx, rfl⟩
        cases b with
        | nil => simp at heq; simp_all
        | cons y b =>
          obtain ⟨rfl, rfl⟩ := by simpa using heq
          refine ⟨b, x, a, rfl, fun z hz => hb z (by simp [hz]), hx, ?_⟩
          simp [Nat.add_assoc, Nat.add_comm 1]
    · simp only [Bool.not_eq_true] at hc
      simp only [lookupFrom, hc, Bool.false_eq_true, if_false, Except.error.injEq]
      constructor
      · rintro rfl
        exact ⟨[], c, cs, rfl, by simp, hc, by simp⟩
      · rintro ⟨b, x, a, heq, hb, hx, rfl⟩
        cases b with
        | nil => simp at heq; simp [heq.1]
        | cons y b =>
          obtain ⟨rfl, rfl⟩ := by simpa using heq
          simp [hc] at hb

/-- What is taken for a port is its oldest request: no earlier entry has that port, and the others keep their order. -/
theorem takePort_eq_some (port : Nat) (q : List InFlight) (e : InFlight) (rest : List InFlight) :
    takePort port q = some (e, rest) ↔
      ∃ before after, q = before ++ e :: after ∧ rest = before ++ after ∧ e.port = port ∧
        ∀ x ∈ before, x.port ≠ port := by
  induction q generalizing rest with
  | nil => simp [takePort]
  | cons x q ih =>
    by_cases hx : x.port = port
    · simp only [takePort, hx, if_true, Option.some.injEq, Prod.mk.injEq]
      constructor
      · rintro ⟨rfl, rfl⟩
        exact ⟨[], q, rfl, rfl, hx, by simp⟩
      · rintro ⟨b, a, heq, rfl, he, hb⟩
        cases b with
        | nil => simpa [eq_comm] using heq
        | cons y b =>
          obtain ⟨rfl, rfl⟩ := by simpa using heq
          exact absurd hx (hb x (by simp))
    · have hstep : takePort port (x :: q) = some (e, rest) ↔
          ∃ r, takePort port q = some (e, r) ∧ rest = x :: r := by
        simp only [takePort, hx, if_false]
        split
        · rename_i y r h
          simp only [h, Option.some.injEq, Prod.mk.injEq]
          constructor
          · rintro ⟨rfl, rfl⟩; exact ⟨r, ⟨rfl, rfl⟩, rfl⟩
          · rintro ⟨r', ⟨rfl, rfl⟩, rfl⟩; exact ⟨rfl, rfl⟩
        · rename_i h; simp [h]
      rw [hstep]
      constructor
      · rintro ⟨r, hr, rfl⟩
        obtain ⟨b, a, rfl, rfl, he, hb⟩ := (ih r).1 hr
        exact ⟨x :: b, a, rfl, rfl, he, by simpa [hx] using hb⟩
      · rintro ⟨b, a, heq, rfl, he, hb⟩
        cases b with
        | nil => simp at heq; exact absurd (heq.1 ▸ he) hx
        | cons y b =>
          obtain ⟨rfl, rfl⟩ := by simpa using heq
          exact ⟨b ++ a, (ih _).2 ⟨b, a, rfl, rfl, he, fun z hz => hb z (by simp [hz])⟩, rfl⟩

/-- Nothing is taken for a port exactly when it has no request in flight. -/
theorem takePort_eq_none (port : Nat) (q : List InFlight) :
    takePort port q = none ↔ ∀ x ∈ q, x.port ≠ port := by
  induction q with
  | nil => simp [takePort]
  | cons x q ih =>
    by_cases hx : x.port = port
    · simp [takePort, hx]
    · simp only [takePort, hx, if_false, List.mem_cons, forall_eq_or_imp, not_false_eq_true, ne_eq, true_and]
      rw [← ih]
      split <;> simp_all

/-- The range check passes exactly when every operand that is checked lies in its interval (R70). -/
theorem rangeCheck_eq_ok (a d : Operand) (c : Option Operand) :
    rangeCheck a d c = .ok () ↔
      inRange .address a = true ∧ inRange .data d = true ∧ ∀ v, c = some v → inRange .comp v = true := by
  cases c <;> simp only [rangeCheck] <;> split <;> (try split) <;> simp_all

/-- What an operation answers: a next state that differs from the state it starts in only by its response, which is
computed from the operands and the tables alone (R25, R80). -/
theorem exec_responds (i : Instr) :
    ∃ f : Roms → Response, ∀ s : State, exec i s = .next (s.respond (f s.roms)) := by
  cases i with
  | symfor nib => exact ⟨fun roms => symforResponse roms nib, fun _ => rfl⟩
  | nibfor sym => exact ⟨fun roms => outcomeResponse (nibforResult roms sym), fun _ => rfl⟩
  | decode len isym => exact ⟨fun roms => outcomeResponse (decodeResult roms len isym), fun _ => rfl⟩
  | encode6 a d => exact ⟨fun roms => outcomeResponse (encode6Result roms false a d), fun _ => rfl⟩
  | encode6Alt a d => exact ⟨fun roms => outcomeResponse (encode6Result roms true a d), fun _ => rfl⟩
  | encode8 a d c => exact ⟨fun roms => outcomeResponse (encode8Result roms false a d c), fun _ => rfl⟩
  | encode8Alt a d c => exact ⟨fun roms => outcomeResponse (encode8Result roms true a d c), fun _ => rfl⟩

end Sys2Proof.Machine
end

