-- ==== Sys2Proof/Laws/PerInstr.lean ====
section
/-! SUPPORT. What holds of every operation as syntax, one lemma per constructor. -/

namespace Sys2Proof.Laws.CommandWord

/-- The command word of an encoded operation has legal fields: RSV is 0, OP is assigned, A and C stand only with
OP = 0b011 (R45, R46). -/
def Statement (i : Instr) : Prop := (cmdFields (encode i).cmd).wf = true

theorem symfor (nib : Nibble) : Statement (.symfor nib) :=
  show (cmdFields (cmdWord false false 0)).wf = true by decide
theorem nibfor (sym : Symbol) : Statement (.nibfor sym) :=
  show (cmdFields (cmdWord false false 1)).wf = true by decide
theorem decode (len : BitVec 8) (isym : Symbols) : Statement (.decode len isym) :=
  show (cmdFields (cmdWord false false 2)).wf = true by decide
theorem encode6 (a d : Operand) : Statement (.encode6 a d) :=
  show (cmdFields (cmdWord false false 3)).wf = true by decide
theorem encode6Alt (a d : Operand) : Statement (.encode6Alt a d) :=
  show (cmdFields (cmdWord true false 3)).wf = true by decide
theorem encode8 (a d c : Operand) : Statement (.encode8 a d c) :=
  show (cmdFields (cmdWord false true 3)).wf = true by decide
theorem encode8Alt (a d c : Operand) : Statement (.encode8Alt a d c) :=
  show (cmdFields (cmdWord true true 3)).wf = true by decide

end Sys2Proof.Laws.CommandWord
end

