-- ==== Sys2Proof/Laws/Step.lean ====
section
/-! SUPPORT. What performing a request, a step and a run of steps can do, said once. -/

namespace Sys2Proof.Machine

/-- Performing a request, legal or not, answers a next state that differs only by its response, and the response is
computed from the request and the tables alone. -/
theorem perform_responds (req : Request) :
    ∃ f : Roms → Response, ∀ s : State, perform req s = .next (s.respond (f s.roms)) := by
  cases h : decode req with
  | error why => exact ⟨fun _ => errorResponse .illegalOp, fun s => by simp only [perform, h]; rfl⟩
  | ok i =>
    obtain ⟨f, hf⟩ := exec_responds i
    exact ⟨f, fun s => by simp only [perform, h, hf]⟩

/-- The request the next step performs, and the state it performs it in: an entry of the queue that is taken out, with
its port as the port answered. With nothing scheduled it is the oldest entry, and for a response that comes due it is
the oldest entry of that port. -/
theorem nextAction_eq_serve {s t : State} {req : Request} (h : s.nextAction = .serve req t) :
    ∃ (e : InFlight) (before after : List InFlight) (es : List Event),
      s.inflight = before ++ e :: after ∧ req = e.req ∧
      t = { s with
        inflight := before ++ after, outPort := e.port, response := none, schedule := es,
        freeIdx := s.freeIdx + 1 } ∧
      ((s.schedule = [] ∧ es = [] ∧ before = []) ∨
        (s.schedule = .complete e.port :: es ∧ ∀ x ∈ before, x.port ≠ e.port)) := by
  unfold State.nextAction at h
  split at h
  · rename_i hs
    split at h
    · cases h
    · rename_i e rest hi
      cases h
      exact ⟨e, [], rest, [], hi, rfl, by rw [← hs]; rfl, .inl ⟨hs, rfl, rfl⟩⟩
  · cases h
  · cases h
  · rename_i port es hs
    split at h
    · cases h
    · rename_i e rest ht
      obtain ⟨before, after, hq, rfl, rfl, hb⟩ := (takePort_eq_some _ _ _ _).1 ht
      cases h
      exact ⟨e, before, after, es, hq, rfl, rfl, .inr ⟨hs, hb⟩⟩

/-- A step that performs no operation: nothing is in flight and nothing is scheduled, a request is accepted, the block is
reset, or a response comes due on a port with nothing in flight. -/
theorem nextAction_eq_pass {s t : State} (h : s.nextAction = .pass t) :
    (s.schedule = [] ∧ s.inflight = [] ∧ t = s.begin) ∨
    (∃ port req es, s.schedule = .present port req :: es ∧
      t = ({ s with schedule := es }.begin.accept port req)) ∨
    (∃ es, s.schedule = .reset :: es ∧ t = { s with schedule := es }.begin.applyReset) ∨
    (∃ port es, s.schedule = .complete port :: es ∧ (∀ x ∈ s.inflight, x.port ≠ port) ∧
      t = { s with schedule := es }.begin) := by
  unfold State.nextAction at h
  split at h
  · rename_i hs
    split at h
    · rename_i hi; cases h; exact .inl ⟨hs, hi, rfl⟩
    · cases h
  · rename_i port req es hs; cases h; exact .inr (.inl ⟨port, req, es, hs, rfl⟩)
  · rename_i es hs; cases h; exact .inr (.inr (.inl ⟨es, hs, rfl⟩))
  · rename_i port es hs
    split at h
    · rename_i ht; cases h
      exact .inr (.inr (.inr ⟨port, es, hs, (takePort_eq_none _ _).1 ht, rfl⟩))
    · cases h

/-- A step either passes or performs one request. -/
theorem step_cases {s t : State} (h : step s = .next t) :
    s.nextAction = .pass t ∨ ∃ req u, s.nextAction = .serve req u ∧ perform req u = .next t := by
  unfold step at h
  split at h
  · rename_i u hu; cases h; exact .inl hu
  · rename_i req u hu; exact .inr ⟨req, u, hu, h⟩

theorem run_zero (s : State) : Sys2Proof.core.run 0 s = .next s := rfl

/-- A run of `k + 1` steps that begins with a step to `t` goes on as a run of `k` steps from `t`. -/
theorem run_succ_of_step {s t : State} (k : Nat) (h : step s = .next t) :
    Sys2Proof.core.run (k + 1) s = Sys2Proof.core.run k t := by
  have h' : Sys2Proof.core.step s = .next t := h
  simp only [Host.Core.run]
  split
  · rename_i x hx; cases h'.symm.trans hx; rfl
  · rename_i x hx; cases h'.symm.trans hx
  · rename_i x hx; cases h'.symm.trans hx

theorem deliveries_succ_of_step {s t : State} (port k : Nat) (h : step s = .next t) :
    deliveries port (k + 1) s = t.deliveredTo port ++ deliveries port k t := by
  simp [deliveries, h]

end Sys2Proof.Machine
end

