-- ==== Sys2Proof/Tests/Slice0.lean ====
section
/-! SUPPORT. The model's own tests. The expected values are those of spec/95_test_vectors.md, whose names stand in the
comments, or are written out from the encoding tables of spec/30_encoding.md; and one witness for the hypotheses of each
statement of Certificates/Slice0/Obligations.lean that has some. -/

namespace Sys2Proof.Tests

open Sys2Proof.Machine

/-! ### Helpers -/

/-- The response an operation gives in the state after reset. -/
def answer (i : Instr) : Option Response :=
  match exec i State.reset with
  | .next t => t.response
  | .fault _ => none
  | .refused _ => none

/-- The response a request gets in the state after reset. -/
def answerTo (req : Request) : Option Response :=
  match perform req State.reset with
  | .next t => t.response
  | .fault _ => none
  | .refused _ => none

/-- The state after one step, or the state itself where there is none. -/
def after (s : State) : State :=
  match step s with
  | .next t => t
  | .fault _ => s
  | .refused _ => s

/-! ### Well-formedness: each check refuses an ill-formed term -/

theorem test_cmd_wf_accepts : (Cmd.mk 0 true true 3).wf = true := by decide
theorem test_cmd_wf_refuses_reserved_bits : (Cmd.mk 1 false false 0).wf = false := by decide
theorem test_cmd_wf_refuses_unassigned_op : (Cmd.mk 0 false false 4).wf = false := by decide
theorem test_cmd_wf_refuses_alt_elsewhere : (Cmd.mk 0 true false 2).wf = false := by decide
theorem test_cmd_wf_refuses_comp_elsewhere : (Cmd.mk 0 false true 0).wf = false := by decide
theorem test_asm_wf_refuses_nibble_16 : (Asm.symfor 16).wf = false := by decide
theorem test_asm_wf_refuses_negative_nibble : (Asm.symfor (-1)).wf = false := by decide
theorem test_asm_wf_refuses_non_ascii_character : (Asm.nibforChar 'é').wf = false := by decide
theorem test_asm_wf_refuses_code_256 : (Asm.nibforCode 256).wf = false := by decide
theorem test_asm_wf_refuses_non_ascii_string : (Asm.decodeString ['A', 'é']).wf = false := by decide
theorem test_asm_wf_refuses_long_string : (Asm.decodeString (List.replicate 256 'A')).wf = false := by decide +kernel
theorem test_asm_wf_refuses_length_256 : (Asm.decodeRaw 256 [0, 0, 0, 0, 0, 0, 0, 0]).wf = false := by decide
theorem test_asm_wf_refuses_seven_codes : (Asm.decodeRaw 6 [0, 0, 0, 0, 0, 0, 0]).wf = false := by decide
theorem test_asm_wf_refuses_raw_code_256 : (Asm.decodeRaw 6 [256, 0, 0, 0, 0, 0, 0, 0]).wf = false := by decide
theorem test_asm_wf_refuses_wide_address : (Asm.encode6 (2 ^ 31) 0).wf = false := by decide
theorem test_asm_wf_refuses_wide_data : (Asm.encode6Alt 0 (-2 ^ 31 - 1)).wf = false := by decide
theorem test_asm_wf_refuses_wide_comp : (Asm.encode8 0 0 (2 ^ 31)).wf = false := by decide
theorem test_asm_wf_refuses_wide_comp_alt : (Asm.encode8Alt 0 0 (2 ^ 31)).wf = false := by decide
theorem test_asm_wf_refuses_wide_optional_comp : (Asm.encode 0 0 (some (2 ^ 31))).wf = false := by decide
theorem test_asm_wf_refuses_wide_optional_comp_alt : (Asm.encodeAlt 0 0 (some (2 ^ 31))).wf = false := by decide

/-- Two equal entries (R20). -/
theorem test_alphabet_refuses_repeats :
    Roms.build #v[0x41, 0x41, 0x5A, 0x4C, 0x47, 0x49, 0x54, 0x59, 0x45, 0x4F, 0x58, 0x55, 0x4B, 0x53, 0x56, 0x4E] = none := by
  decide

/-- A lower-case entry (R6, constraint ii). -/
theorem test_alphabet_refuses_lower_case :
    Roms.build #v[0x61, 0x50, 0x5A, 0x4C, 0x47, 0x49, 0x54, 0x59, 0x45, 0x4F, 0x58, 0x55, 0x4B, 0x53, 0x56, 0x4E] = none := by
  decide

/-! ### Decoding: each word written out from R45 and R46 as RSV A C OP -/

theorem test_decode_symfor :
    decode { Request.zero with cmd := 0b000_0_0_000#8, nibIn := 5 } = .ok (.symfor 5) := by decide
theorem test_decode_nibfor :
    decode { Request.zero with cmd := 0b000_0_0_001#8, isym := #v[0x53, 1, 2, 3, 4, 5, 6, 7] } = .ok (.nibfor 0x53) := by
  decide
theorem test_decode_decode :
    decode { Request.zero with cmd := 0b000_0_0_010#8, len := 6, isym := #v[1, 2, 3, 4, 5, 6, 7, 8] } =
      .ok (.decode 6 #v[1, 2, 3, 4, 5, 6, 7, 8]) := by decide
theorem test_decode_encode6 :
    decode { Request.zero with cmd := 0b000_0_0_011#8, aIn := 1, dIn := 2, cIn := 3 } = .ok (.encode6 1 2) := by decide
theorem test_decode_encode6Alt :
    decode { Request.zero with cmd := 0b000_1_0_011#8, aIn := 1, dIn := 2, cIn := 3 } = .ok (.encode6Alt 1 2) := by
  decide
theorem test_decode_encode8 :
    decode { Request.zero with cmd := 0b000_0_1_011#8, aIn := 1, dIn := 2, cIn := 3 } = .ok (.encode8 1 2 3) := by decide
theorem test_decode_encode8Alt :
    decode { Request.zero with cmd := 0b000_1_1_011#8, aIn := 1, dIn := 2, cIn := 3 } = .ok (.encode8Alt 1 2 3) := by
  decide

/-- V-I1, V-I2, V-I3, V-I4, V-I5, V-I6: each illegal for its own reason. -/
theorem test_decode_rejects_by_name :
    decode { Request.zero with cmd := 0x04 } = .error .unassignedOp ∧
    decode { Request.zero with cmd := 0x07 } = .error .unassignedOp ∧
    decode { Request.zero with cmd := 0x20 } = .error .reservedBits ∧
    decode { Request.zero with cmd := 0x08 } = .error .modifierNotAllowed ∧
    decode { Request.zero with cmd := 0x12 } = .error .modifierNotAllowed ∧
    decode { Request.zero with cmd := 0x0A } = .error .modifierNotAllowed := by decide

/-- 249 of the 256 values are illegal (R47). -/
theorem test_249_commands_are_illegal :
    ((List.range 256).filter fun c =>
      match decode { Request.zero with cmd := BitVec.ofNat 8 c } with
      | .ok _ => false
      | .error _ => true).length = 249 := by decide +kernel

/-! ### The operations -/

/-- V-S6. -/
theorem test_symfor_5 : answer (.symfor 5) = some { zeroResponse with olen := 1, osym := #v[0x49, 0, 0, 0, 0, 0, 0, 0] } := by
  decide
/-- V-S16. -/
theorem test_symfor_15 :
    answer (.symfor 15) = some { zeroResponse with olen := 1, osym := #v[0x4E, 0, 0, 0, 0, 0, 0, 0] } := by decide
/-- V-N4: a lower-case letter at the end of the table. -/
theorem test_nibfor_lower_n : answer (.nibfor 0x6E) = some { zeroResponse with nib := 15 } := by decide
/-- V-N12: the code is reported as presented. -/
theorem test_nibfor_lower_b :
    answer (.nibfor 0x62) = some { zeroResponse with status := .invalidSymbol, errChar := 0x62 } := by decide
/-- V-D13: an 8-symbol code, "GOSSIPEE". -/
theorem test_decode_gossipee :
    answer (.decode 8 #v[0x47, 0x4F, 0x53, 0x53, 0x49, 0x50, 0x45, 0x45]) =
      some { zeroResponse with addr := 0xD1DD, data := 0x1C, comp := 0x80, compv := true } := by decide
/-- V-D29: "AAAAAb", the last of six symbols is not found. -/
theorem test_decode_last_symbol_bad :
    answer (.decode 6 #v[0x41, 0x41, 0x41, 0x41, 0x41, 0x62, 0, 0]) =
      some { zeroResponse with status := .invalidSymbol, errIndex := 5, errChar := 0x62 } := by decide
/-- V-E11: "ZSXGIU". -/
theorem test_encode6_c3a5 :
    answer (.encode6 0xC3A5 0x5A) =
      some { zeroResponse with olen := 6, osym := #v[0x5A, 0x53, 0x58, 0x47, 0x49, 0x55, 0, 0] } := by decide
/-- V-E30: the compare is signed. -/
theorem test_encode6_most_negative_address :
    answer (.encode6 0x80000000 0) = some { zeroResponse with status := .outOfRange, errValue := 0x80000000 } := by decide
/-- V-E4: "NNYNNN". -/
theorem test_encode6Alt_ffff :
    answer (.encode6Alt 0xFFFF 0xFF) =
      some { zeroResponse with olen := 6, osym := #v[0x4E, 0x4E, 0x59, 0x4E, 0x4E, 0x4E, 0, 0] } := by decide
/-- V-E24 with the A bit: 0x100 is too large for data. -/
theorem test_encode6Alt_data_too_large :
    answer (.encode6Alt 0x8000 0x100) =
      some { zeroResponse with status := .outOfRange, errField := 1, errValue := 0x100 } := by decide
/-- V-E35: "GUXZIIUK", data[3] = 1 and comp[3] = 0. -/
theorem test_encode8_a5a5 :
    answer (.encode8 0xA5A5 0x3C 0xC3) =
      some { zeroResponse with olen := 8, osym := #v[0x47, 0x55, 0x58, 0x5A, 0x49, 0x49, 0x55, 0x4B] } := by decide
/-- V-E27: a negative comp. -/
theorem test_encode8_negative_comp :
    answer (.encode8 0x8000 0 0xFFFFFFFF) =
      some { zeroResponse with status := .outOfRange, errField := 2, errValue := 0xFFFFFFFF } := by decide
/-- V-E19: "ZSZGILSX". -/
theorem test_encode8Alt_c3a5 :
    answer (.encode8Alt 0xC3A5 0x5A 0xA5) =
      some { zeroResponse with olen := 8, osym := #v[0x5A, 0x53, 0x5A, 0x47, 0x49, 0x4C, 0x53, 0x58] } := by decide
/-- V-E29 with the A bit: data is reported before comp. -/
theorem test_encode8Alt_data_before_comp :
    answer (.encode8Alt 0x8000 0x100 0x100) =
      some { zeroResponse with status := .outOfRange, errField := 1, errValue := 0x100 } := by decide

/-- V-I8: no range check runs for an illegal CMD. -/
theorem test_illegal_command : answerTo { Request.zero with cmd := 0x23 } = some { zeroResponse with status := .illegalOp } := by
  decide

/-- An alphabet other than the default one: entry 1 is '!' (R6 allows any code that is no lower-case letter). -/
theorem test_other_alphabet :
    (Roms.build #v[0x41, 0x21, 0x5A, 0x4C, 0x47, 0x49, 0x54, 0x59, 0x45, 0x4F, 0x58, 0x55, 0x4B, 0x53, 0x56, 0x00]).map
      (fun roms => (invRead roms 0x21, invRead roms 0x00, invRead roms 0x50)) =
    some ({ valid := true, nib := 1 }, { valid := true, nib := 15 }, { valid := false, nib := 0 }) := by decide

/-! ### Steps -/

/-- Two requests of port 1 and one of port 2 in flight; the response of port 2 comes due first (R36, R37). -/
def twoPorts : State :=
  { State.reset with
    inflight := [⟨1, encode (.symfor 5)⟩, ⟨2, encode (.symfor 15)⟩, ⟨1, encode (.nibfor 0x6E)⟩]
    schedule := [.complete 2] }

theorem test_step_completes_the_port :
    (after twoPorts).outPort = 2 ∧ (after twoPorts).inflight = [⟨1, encode (.symfor 5)⟩, ⟨1, encode (.nibfor 0x6E)⟩] ∧
      (after twoPorts).response = answer (.symfor 15) := by decide

theorem test_reset_discards :
    (after { twoPorts with schedule := [.reset] }).inflight = [] ∧
      (after { twoPorts with schedule := [.reset] }).response = none := by decide

/-- A word placed by `withFetchWord` is performed by the next step: ENCODE8.ALT with A_IN = 0 is out of range. -/
theorem test_placed_word :
    (after (State.reset.withFetchWord 8 0x1B)).response = some { zeroResponse with status := .outOfRange } := by decide

/-! ### The request notation -/

/-- P1, step 1, with a comment. -/
theorem test_assemble_encode6 :
    assembleText "ENCODE6 0x91D9, 0xAD ; round trip".toList =
      some [{ Request.zero with cmd := 0x03, aIn := 0x91D9, dIn := 0xAD }] := by decide +kernel

/-- V-D26, V-E30, a character, a string, a pseudo-instruction and a comment line. -/
theorem test_assemble_lines :
    assembleText "DECODE LEN=6, [0x53,0x58,0x49,0x4F,0x50,0x4F,0xFF,0x00]\nENCODE6 -2147483648, 0x00\n; note\nENCODE.ALT 1, 2, 3".toList =
      some [{ Request.zero with cmd := 0x02, len := 6, isym := #v[0x53, 0x58, 0x49, 0x4F, 0x50, 0x4F, 0xFF, 0x00] },
        { Request.zero with cmd := 0x03, aIn := 0x80000000 },
        { Request.zero with cmd := 0x1B, aIn := 1, dIn := 2, cIn := 3 }] := by decide +kernel

/-- P3, step 1: seven characters; and NIBFOR of a character and of a code. -/
theorem test_assemble_quotes :
    assembleText "DECODE \"AAAAAAA\"\nNIBFOR 'n'\nNIBFOR 0xE1\nSYMFOR 5".toList =
      some [{ Request.zero with cmd := 0x02, len := 7, isym := #v[0x41, 0x41, 0x41, 0x41, 0x41, 0x41, 0x41, 0] },
        { Request.zero with cmd := 0x01, isym := #v[0x6E, 0, 0, 0, 0, 0, 0, 0] },
        { Request.zero with cmd := 0x01, isym := #v[0xE1, 0, 0, 0, 0, 0, 0, 0] },
        { Request.zero with nibIn := 5 }] := by decide +kernel

/-- A line that is not of the notation has no request. -/
theorem test_assemble_refuses : assembleText "SYMFOR 16".toList = none ∧ assembleText "ENCODE6 1".toList = none := by
  decide +kernel

/-- V-D5 as it is written. -/
theorem test_shown_fields :
    (answer (.decode 6 #v[0x53, 0x58, 0x49, 0x4F, 0x50, 0x4F, 0, 0])).map shownFields =
      some [("WARN", 1), ("ADDR", 0x91D9), ("DATA", 0xAD)] := by decide

/-! ### Witnesses: the hypotheses of a statement are met together, each clause at a boundary of its range -/

/-- Three requests: `SYMFOR 5`, `DECODE "SXIOPO"` and an illegal one. -/
def symfor5 : Request := encode (.symfor 5)
def sxiopo : Symbols := #v[0x53, 0x58, 0x49, 0x4F, 0x50, 0x4F, 0xFF, 0]
def illegal4 : Request := { Request.zero with cmd := 0x04 }

theorem witness_IllegalCommandGetsIllegalOp :
    illegal4.cmd ∉ legalCommands ∧ { Request.zero with cmd := 0xFF }.cmd ∉ legalCommands := by decide

theorem witness_LegalCommandPerformsItsOperation :
    symfor5.cmd ∈ legalCommands ∧ (encode (.encode8Alt 0 0 0)).cmd ∈ legalCommands := by decide

/-- The hypotheses of `Obligations.UnreadFieldsChangeNothing`. -/
abbrev ReadAlike (req req' : Request) : Prop :=
  req'.cmd = req.cmd ∧
  (req.cmd = 0x00 → req'.nibIn = req.nibIn) ∧
  (req.cmd = 0x01 → req'.isym[0] = req.isym[0]) ∧
  (req.cmd = 0x02 → req'.len = req.len ∧
    ((req.len = 6 ∨ req.len = 8) → ∀ i : Fin 8, i.val < req.len.toNat → req'.isym[i] = req.isym[i])) ∧
  (req.cmd ∈ [(0x03 : CmdWord), 0x13, 0x0B, 0x1B] → req'.aIn = req.aIn ∧ req'.dIn = req.dIn) ∧
  (req.cmd ∈ [(0x0B : CmdWord), 0x1B] → req'.cIn = req.cIn)

/-- One pair of different requests for each clause: an illegal CMD, SYMFOR, NIBFOR, DECODE with LEN 6 and 7, ENCODE6,
ENCODE8. -/
theorem witness_UnreadFieldsChangeNothing :
    ∀ p ∈ [(illegal4, { illegal4 with aIn := 1 }),
        (symfor5, { symfor5 with len := 6 }),
        (encode (.nibfor 0x41), { encode (.nibfor 0x41) with isym := #v[0x41, 1, 0, 0, 0, 0, 0, 0] }),
        (encode (.decode 6 #v[1, 2, 3, 4, 5, 6, 7, 8]), encode (.decode 6 #v[1, 2, 3, 4, 5, 6, 0, 0])),
        (encode (.decode 7 #v[1, 2, 3, 4, 5, 6, 7, 8]), encode (.decode 7 #v[0, 0, 0, 0, 0, 0, 0, 0])),
        (encode (.encode6 1 2), { encode (.encode6 1 2) with cIn := 0x100 }),
        (encode (.encode8 1 2 3), { encode (.encode8 1 2 3) with nibIn := 1 })],
      ReadAlike p.1 p.2 := by decide

theorem witness_NormFoldsLowerCaseOnly :
    (Machine.norm 0x60 = 0x60 ∧ Machine.norm 0x61 = 0x41) ∧ (Machine.norm 0x7A = 0x5A ∧ Machine.norm 0x7B = 0x7B) ∧ Machine.norm 0xFF = 0xFF := by decide

theorem witness_InvRomIsTheFoldedInverse :
    State.reset.roms.symRom[(15 : Nibble).toNat] = Machine.norm 0x6E ∧
    (∀ n : Nibble, State.reset.roms.symRom[n.toNat] ≠ Machine.norm 0x7B) := by decide

theorem witness_TablesAgreeBothWays :
    State.reset.roms.invRom[(0x6E : Symbol).toNat] = { valid := true, nib := 15 } := by decide +kernel

/-- A legal alphabet is built; a repeated entry and a lower-case entry at either end of the range are refused. -/
theorem witness_IllegalAlphabetIsRefused :
    Roms.build Config.defaultAlphabet ≠ none ∧
    Roms.build (Config.defaultAlphabet.set 0 0x50) = none ∧
    Roms.build (Config.defaultAlphabet.set 0 0x61) = none ∧ Roms.build (Config.defaultAlphabet.set 15 0x7A) = none ∧
    Roms.build (Config.defaultAlphabet.set 0 0x60) ≠ none ∧ Roms.build (Config.defaultAlphabet.set 0 0x7B) ≠ none := by
  decide

theorem witness_SymforAnswersTheEntry :
    symfor5.cmd = 0x00 ∧ symfor5.nibIn = 5 ∧ (encode (.symfor 15)).cmd = 0x00 ∧ (encode (.symfor 0)).cmd = 0x00 := by
  decide

theorem witness_NibforAnswersTheNibble :
    (encode (.nibfor 0x6E)).cmd = 0x01 ∧ Spells State.reset.roms (encode (.nibfor 0x6E)).isym[0] 15 := by decide

theorem witness_NibforRejectsOtherSymbols :
    ¬ InAlphabet State.reset.roms 0x00 ∧ ¬ InAlphabet State.reset.roms 0x60 ∧ ¬ InAlphabet State.reset.roms 0x7B ∧
      ¬ InAlphabet State.reset.roms 0xE1 := by decide

theorem witness_NibforUndoesSymfor :
    ∃ (t : State) (r : Response), exec (.symfor 15) State.reset = .next t ∧ t.response = some r := ⟨_, _, rfl, rfl⟩

/-- The lengths beside 6 and 8 and at the ends of the range; and a request that is answered INVALID_LENGTH. -/
theorem witness_DecodeRejectsOtherLengths :
    (∀ len ∈ [(0 : BitVec 8), 5, 7, 9, 255], len ≠ 6 ∧ len ≠ 8) ∧
    ∃ (t : State) (r : Response), perform (encode (.decode 7 sxiopo)) State.reset = .next t ∧ t.response = some r ∧
      r.status = .invalidLength := ⟨by decide, _, _, rfl, rfl, by decide⟩

/-- The hypotheses of `Obligations.DecodeRejectsTheFirstBadSymbol` in the state after reset. -/
abbrev FirstBad (len : BitVec 8) (isym : Symbols) (k : Fin 8) : Prop :=
  (len = 6 ∨ len = 8) ∧ k.val < len.toNat ∧ (∀ i : Fin 8, i < k → InAlphabet State.reset.roms isym[i]) ∧
    ¬ InAlphabet State.reset.roms isym[k]

theorem witness_DecodeRejectsTheFirstBadSymbol :
    FirstBad 6 #v[0x42, 0x42, 0, 0, 0, 0, 0, 0] 0 ∧ FirstBad 6 #v[0x53, 0x58, 0x49, 0x4F, 0x50, 0x42, 0, 0] 5 ∧
      FirstBad 8 #v[0x53, 0x58, 0x49, 0x4F, 0x50, 0x4F, 0x41, 0x60] 7 := by decide

/-- "SxIoPo": LEN = 6, with an invalid symbol beyond the code, and n[2][3] = 0. -/
theorem witness_DecodeSixFollowsTheBitMap :
    let req := encode (.decode 6 #v[0x53, 0x78, 0x49, 0x6F, 0x50, 0x6F, 0xFF, 0])
    req.cmd = 0x02 ∧ req.len = 6 ∧
      ∀ i : Fin 8, i.val < 6 → Spells State.reset.roms req.isym[i] (#v[13, 10, 5, 9, 1, 9, 0, 0] : Slots)[i] := by decide

/-- "SXSOPOVS". -/
theorem witness_DecodeEightFollowsTheBitMap :
    let req := encode (.decode 8 #v[0x53, 0x58, 0x53, 0x4F, 0x50, 0x4F, 0x56, 0x53])
    req.cmd = 0x02 ∧ req.len = 8 ∧
      ∀ i : Fin 8, Spells State.reset.roms req.isym[i] (#v[13, 10, 13, 9, 1, 9, 14, 13] : Slots)[i] := by decide

/-- Both sides of the equivalence: "SXIOPO" warns, "SXSOPO" does not. -/
theorem witness_WarnExactlyWhenSlotTwoBitThreeUnset :
    (∃ (t : State) (r : Response), perform (encode (.decode 6 sxiopo)) State.reset = .next t ∧ t.response = some r ∧
      r.warn = true) ∧
    (∃ (t : State) (r : Response), perform (encode (.decode 6 (sxiopo.set 2 0x53))) State.reset = .next t ∧
      t.response = some r ∧ r.warn = false) := ⟨⟨_, _, rfl, rfl, by decide⟩, ⟨_, _, rfl, rfl, by decide⟩⟩

theorem witness_DecodedAddressInUpperHalf :
    ∃ (t : State) (r : Response), exec (.decode 6 sxiopo) State.reset = .next t ∧ t.response = some r ∧
      r.status = .ok := ⟨_, _, rfl, rfl, by decide⟩

theorem witness_DecodeIgnoresCase :
    let lower : Symbols := #v[0x73, 0x78, 0x69, 0x6F, 0x70, 0x6F, 0xFF, 0]
    (∀ i : Fin 8, Machine.norm lower[i] = Machine.norm sxiopo[i]) ∧
    ∃ (t t' : State) (r r' : Response), exec (.decode 6 sxiopo) State.reset = .next t ∧
      exec (.decode 6 lower) State.reset = .next t' ∧ t.response = some r ∧ t'.response = some r' ∧ r.status = .ok :=
  ⟨by decide, _, _, _, _, rfl, rfl, rfl, rfl, by decide⟩

/-- "SXIOPO" and "SXSOPO": the same record. -/
theorem witness_SameRecordOnlyUpToSlotTwoBitThree :
    (∀ i : Fin 8, i.val < 6 → Spells State.reset.roms sxiopo[i] (#v[13, 10, 5, 9, 1, 9, 0, 0] : Slots)[i]) ∧
    (∀ i : Fin 8, i.val < 6 →
      Spells State.reset.roms (sxiopo.set 2 0x53)[i] (#v[13, 10, 13, 9, 1, 9, 0, 0] : Slots)[i]) ∧
    ∃ (t t' : State) (r r' : Response), exec (.decode 6 sxiopo) State.reset = .next t ∧ t.response = some r ∧
      exec (.decode 6 (sxiopo.set 2 0x53)) State.reset = .next t' ∧ t'.response = some r' ∧
      r.addr = r'.addr ∧ r.data = r'.data ∧ r.comp = r'.comp :=
  ⟨by decide, by decide, _, _, _, _, rfl, rfl, rfl, rfl, by decide⟩

/-- The same for LEN = 8: "SXIOPOVS" and "SXSOPOVS". -/
theorem witness_SameRecordOnlyUpToSlotTwoBitThree_eight :
    let isym : Symbols := #v[0x53, 0x58, 0x49, 0x4F, 0x50, 0x4F, 0x56, 0x53]
    (∀ i : Fin 8, Spells State.reset.roms isym[i] (#v[13, 10, 5, 9, 1, 9, 14, 13] : Slots)[i]) ∧
    (∀ i : Fin 8, Spells State.reset.roms (isym.set 2 0x53)[i] (#v[13, 10, 13, 9, 1, 9, 14, 13] : Slots)[i]) ∧
    ∃ (t t' : State) (r r' : Response), exec (.decode 8 isym) State.reset = .next t ∧ t.response = some r ∧
      exec (.decode 8 (isym.set 2 0x53)) State.reset = .next t' ∧ t'.response = some r' ∧
      r.addr = r'.addr ∧ r.data = r'.data ∧ r.comp = r'.comp :=
  ⟨by decide, by decide, _, _, _, _, rfl, rfl, rfl, rfl, by decide⟩

/-- Both ends of each interval. -/
theorem witness_EncodeSixFollowsTheBitMap :
    ∀ a ∈ [(0x8000 : Operand), 0xFFFF], ∀ d ∈ [(0 : Operand), 0xFF],
      0x8000 ≤ a.toInt ∧ a.toInt ≤ 0xFFFF ∧ 0 ≤ d.toInt ∧ d.toInt ≤ 0xFF := by simp [BitVec.toInt]

theorem witness_EncodeEightFollowsTheBitMap :
    ∀ a ∈ [(0x8000 : Operand), 0xFFFF], ∀ d ∈ [(0 : Operand), 0xFF], ∀ c ∈ [(0 : Operand), 0xFF],
      0x8000 ≤ a.toInt ∧ a.toInt ≤ 0xFFFF ∧ 0 ≤ d.toInt ∧ d.toInt ≤ 0xFF ∧ 0 ≤ c.toInt ∧ c.toInt ≤ 0xFF := by simp [BitVec.toInt]

/-- Each clause just outside its interval, and at the most negative operand. -/
theorem witness_EncodeReportsTheFirstOperandOutOfRange :
    (∀ a ∈ [(0x7FFF : Operand), 0x10000, 0x80000000], a.toInt < 0x8000 ∨ 0xFFFF < a.toInt) ∧
    (0x8000 ≤ (0x8000 : Operand).toInt ∧ (0x8000 : Operand).toInt ≤ 0xFFFF ∧
      ∀ d ∈ [(0xFFFFFFFF : Operand), 0x100], d.toInt < 0 ∨ 0xFF < d.toInt) ∧
    (0 ≤ (0xFF : Operand).toInt ∧ (0xFF : Operand).toInt ≤ 0xFF ∧
      ∀ c ∈ [(0xFFFFFFFF : Operand), 0x100], c.toInt < 0 ∨ 0xFF < c.toInt) := by simp [BitVec.toInt]

/-- In range and out of range. -/
theorem witness_AltChangesSlotTwoBitThreeOnly :
    (∃ (t t' : State) (r r' : Response), exec (.encode6 0x91D9 0xAD) State.reset = .next t ∧ t.response = some r ∧
      exec (.encode6Alt 0x91D9 0xAD) State.reset = .next t' ∧ t'.response = some r' ∧ r.status = .ok) ∧
    (∃ (t t' : State) (r r' : Response), exec (.encode8 0 0 0) State.reset = .next t ∧ t.response = some r ∧
      exec (.encode8Alt 0 0 0) State.reset = .next t' ∧ t'.response = some r' ∧ r.status ≠ .ok) :=
  ⟨⟨_, _, _, _, rfl, rfl, rfl, rfl, by decide⟩, ⟨_, _, _, _, rfl, rfl, rfl, rfl, by decide⟩⟩

/-- Both sides of the equivalence: V-E34 with V-E35 (different), and equal bits 3. -/
theorem witness_LayoutsShareSixSymbolsOnlyIfBitThreesAgree :
    ∀ c ∈ [(0xC3 : Operand), 0xCB],
      ∃ (t t' : State) (r r' : Response), exec (.encode6 0xA5A5 0x3C) State.reset = .next t ∧ t.response = some r ∧
        r.status = .ok ∧ exec (.encode8 0xA5A5 0x3C c) State.reset = .next t' ∧ t'.response = some r' ∧
        r'.status = .ok := by
  intro c hc
  rcases List.mem_pair.1 hc with rfl | rfl
  · exact ⟨_, _, _, _, rfl, rfl, by decide, rfl, rfl, by decide⟩
  · exact ⟨_, _, _, _, rfl, rfl, by decide, rfl, rfl, by decide⟩

theorem witness_DecodeAfterEncodeSix : 0x8000 ≤ (0x8000 : Address).toNat ∧ 0x8000 ≤ (0xFFFF : Address).toNat := by decide
theorem witness_DecodeAfterEncodeEight : 0x8000 ≤ (0x8000 : Address).toNat ∧ 0x8000 ≤ (0xFFFF : Address).toNat := by
  decide

/-- "SXIOPO", whose n[2][3] is 0. -/
theorem witness_ReencodingGivesTheNormalForm :
    (∀ i : Fin 8, i.val < (6 : BitVec 8).toNat →
      Spells State.reset.roms sxiopo[i] (#v[13, 10, 5, 9, 1, 9, 0, 0] : Slots)[i]) ∧
    (∃ (t : State) (r : Response), exec (.decode 6 sxiopo) State.reset = .next t ∧ t.response = some r) ∧
    (true = !(#v[13, 10, 5, 9, 1, 9, 0, 0] : Slots)[2].getLsbD 3) :=
  ⟨by decide, ⟨_, _, rfl, rfl⟩, by decide⟩

/-- One request for each status the block produces. -/
theorem witness_EachStatusFromItsOperations :
    ∀ p ∈ [(symfor5, (0 : BitVec 3)), (encode (.decode 7 sxiopo), 1), (encode (.nibfor 0), 2), (encode (.encode6 0 0), 3),
        (illegal4, 7)],
      ∃ (t : State) (r : Response), perform p.1 State.reset = .next t ∧ t.response = some r ∧
        statusCode r.status = p.2 := by
  intro p hp
  simp only [List.mem_cons, List.not_mem_nil, or_false] at hp
  rcases hp with rfl | rfl | rfl | rfl | rfl
  all_goals exact ⟨_, _, rfl, rfl, by decide⟩

/-- A step that delivers, from a state with a request in flight. -/
theorem witness_EveryStepDeliversAWellShapedResponse :
    ∃ t : State, step twoPorts = .next t ∧ t.response ≠ none := ⟨_, rfl, by decide⟩

theorem witness_OutputSymbolsAreStoredEntries :
    ∃ (t : State) (r : Response), perform (encode (.encode8 0x8000 0 0xFF)) State.reset = .next t ∧
      t.response = some r ∧ (7 : Fin 8).val < r.olen.toNat := ⟨_, _, rfl, rfl, by decide⟩

/-- Two blocks with the same tables and different queues and schedules. -/
theorem witness_ResponseDependsOnRequestAndTablesOnly :
    twoPorts.roms = State.reset.roms ∧ twoPorts.inflight ≠ State.reset.inflight ∧
      ∃ t t' : State, perform symfor5 twoPorts = .next t ∧ perform symfor5 State.reset = .next t' :=
  ⟨rfl, by decide, _, _, rfl, rfl⟩

/-- P3: a request in error, then one that succeeds. -/
theorem witness_NoRequestLeavesATrace :
    ∃ t u u' : State, perform illegal4 State.reset = .next t ∧ perform symfor5 t = .next u ∧
      perform symfor5 State.reset = .next u' := ⟨_, _, _, rfl, rfl, rfl⟩

/-- Strings of length 0, 6 and 255. -/
theorem witness_CodeStringValidity :
    (Asm.decodeString []).wf = true ∧ (Asm.decodeString "SXIOPO".toList).wf = true ∧
      (Asm.decodeString (List.replicate 255 'A')).wf = true := by decide +kernel

/-- Both ends of each range are well formed. -/
theorem witness_WellFormedLinesAssembleToLegalRequests :
    (Asm.symfor 0).wf = true ∧ (Asm.symfor 15).wf = true ∧ (Asm.nibforChar 'n').wf = true ∧
    (Asm.nibforCode 0).wf = true ∧ (Asm.nibforCode 255).wf = true ∧ (Asm.decodeString []).wf = true ∧
    (Asm.decodeRaw 255 [0, 255, 0, 0, 0, 0, 0, 255]).wf = true ∧
    (Asm.encode6 (-2 ^ 31) (2 ^ 31 - 1)).wf = true ∧ (Asm.encode6Alt 0 0).wf = true ∧
    (Asm.encode8 0 0 (-2 ^ 31)).wf = true ∧ (Asm.encode8Alt 0 0 (2 ^ 31 - 1)).wf = true ∧
    (Asm.encode 0 0 none).wf = true ∧ (Asm.encodeAlt 0 0 (some 0)).wf = true := by decide

theorem witness_PseudoInstructionsExpand :
    ∀ (a d : Int) (c : Option Int), Asm.symfor 5 ≠ .encode a d c ∧ Asm.symfor 5 ≠ .encodeAlt a d c := by simp

/-- The ends of the ranges of each clause. -/
theorem witness_AssembledLinesSetTheirFields :
    (∀ x ∈ [(0 : Int), 15], 0 ≤ x ∧ x ≤ 15) ∧ (∀ x ∈ [(0 : Int), 255], 0 ≤ x ∧ x ≤ 255) ∧
      (∀ x ∈ [(-2 ^ 31 : Int), 2 ^ 31 - 1], -2 ^ 31 ≤ x ∧ x < 2 ^ 31) := by decide

/-- The first and last ASCII codes; strings of length 0, 7, 9 and 255; a raw line with the ends of its ranges. -/
theorem witness_AssembledLinesSetTheirFields_decode :
    (Char.ofNat 0).toNat < 128 ∧ (Char.ofNat 127).toNat < 128 ∧
    (∀ n ∈ [0, 7, 9, 255], (List.replicate n 'A').length ≤ 255 ∧ ∀ ch ∈ List.replicate n 'A', ch.toNat < 128) ∧
    ([0, 255, 0, 0, 0, 0, 0, 255] : List Int).length = 8 ∧
      ∀ c ∈ ([0, 255, 0, 0, 0, 0, 0, 255] : List Int), 0 ≤ c ∧ c ≤ 255 := by
  refine ⟨by decide, by decide, fun n hn => ⟨?_, fun ch hch => ?_⟩, rfl, by decide⟩
  · simp at hn ⊢; omega
  · rw [List.eq_of_mem_replicate hch]; decide

/-- A legal and an illegal request as the oldest one. -/
theorem witness_StepPerformsTheOldestRequest :
    let s := { twoPorts with schedule := [] }
    (s.schedule = [] ∧ s.inflight = ⟨1, symfor5⟩ :: s.inflight.tail ∧ decode symfor5 = .ok (.symfor 5)) ∧
    (let s' := { s with inflight := [⟨1, illegal4⟩] }
     s'.schedule = [] ∧ s'.inflight = ⟨1, illegal4⟩ :: [] ∧ decode illegal4 = .error .unassignedOp) := by decide

/-- A port whose oldest request is in the middle of the queue, and a port with none. -/
theorem witness_CompletionPerformsThePortsOldestRequest :
    (twoPorts.schedule = .complete 2 :: [] ∧
      twoPorts.inflight = [⟨1, symfor5⟩] ++ ⟨2, encode (.symfor 15)⟩ :: [⟨1, encode (.nibfor 0x6E)⟩] ∧
      ∀ x ∈ [(⟨1, symfor5⟩ : InFlight)], x.port ≠ 2) ∧
    ∀ x ∈ twoPorts.inflight, x.port ≠ 3 := by decide

theorem witness_PresentedRequestIsAlwaysAccepted :
    { twoPorts with schedule := [.present 1 symfor5] }.schedule = .present 1 symfor5 :: [] := rfl

theorem witness_ResetDiscardsRequestsAndKeepsTables :
    { twoPorts with schedule := [.reset] }.schedule = .reset :: [] ∧ twoPorts.inflight ≠ [] := by decide

theorem witness_TablesNeverChange :
    (∃ t : State, step twoPorts = .next t) ∧ ∃ t : State, Sys2Proof.core.run 2 twoPorts = .next t :=
  ⟨⟨_, rfl⟩, ⟨_, rfl⟩⟩

theorem witness_PlacedWordIsPerformedNext : decodeTableWord 8 0x1B = some (.encode8Alt 0 0 0) := by decide

/-- Two steps, one of them an event, with responses delivered to two ports. -/
theorem witness_EachRequesterGetsItsResponsesInOrder :
    Event.reset ∉ twoPorts.schedule.take 2 ∧ (∃ t : State, Sys2Proof.core.run 2 twoPorts = .next t) ∧
      deliveries 1 2 twoPorts ≠ [] ∧ deliveries 2 2 twoPorts ≠ [] :=
  ⟨by decide, ⟨_, rfl⟩, by decide, by decide⟩

theorem witness_QueueDrainsInAsManySteps :
    { twoPorts with schedule := [] }.schedule = [] ∧ { twoPorts with schedule := [] }.inflight ≠ [] := by decide

theorem witness_LinesCarryTheDeliveredResponse :
    { twoPorts with schedule := [] }.schedule = [] ∧
      { twoPorts with schedule := [] }.inflight = ⟨1, symfor5⟩ :: twoPorts.inflight.tail := by decide

end Sys2Proof.Tests
end

/-! SUPPORT. The two tables, said through `symRead` and `invRead`, and which ALPHABET a block is built with
(spec/10_state.md R19 to R22). -/

namespace Sys2Proof.Machine

/-- The interval of R57, read as numbers. -/
theorem isLower_iff (c : Symbol) : isLower c = true ↔ 0x61 ≤ c.toNat ∧ c.toNat ≤ 0x7A := by
  simp [isLower, BitVec.le_def]

theorem symRead_injective (roms : Roms) {i j : Nibble} (h : symRead roms i = symRead roms j) : i = j :=
  BitVec.eq_of_toNat_eq (roms.symRom_injective i.isLt j.isLt h)

/-- R22: no stored symbol folds, since none is a lower-case letter. -/
theorem norm_symRead (roms : Roms) (i : Nibble) : norm (symRead roms i) = symRead roms i :=
  norm_of_not_lower (roms.symRom_not_lower i.toNat i.isLt)

theorem spells_symRead (roms : Roms) (i : Nibble) : Spells roms (symRead roms i) i :=
  (norm_symRead roms i).symm

/-- What an entry of INV_ROM can be: valid with a nibble its code spells, or all 0 where the code spells none. -/
theorem invRead_cases (roms : Roms) (c : Symbol) :
    (∃ n, invRead roms c = { valid := true, nib := n } ∧ Spells roms c n) ∨
      (invRead roms c = { valid := false, nib := 0 } ∧ ¬ InAlphabet roms c) := by
  rw [invRead_eq, invEntryOf]
  split
  · next i hfind =>
    have hi : roms.symRom[i] = norm c := by simpa using List.find?_some hfind
    exact .inl ⟨BitVec.ofFin i, rfl, hi⟩
  · next hfind =>
    refine .inr ⟨rfl, fun ⟨n, hn⟩ => ?_⟩
    exact List.find?_eq_none.1 hfind n.toFin (List.mem_finRange _) (beq_iff_eq.2 hn)

/-- R21 for one nibble: the search finds `n` itself, since no other nibble has the same symbol (R20). -/
theorem invRead_eq_valid_iff (roms : Roms) (c : Symbol) (n : Nibble) :
    invRead roms c = { valid := true, nib := n } ↔ Spells roms c n := by
  obtain ⟨m, hentry, hm⟩ | ⟨hentry, hnone⟩ := invRead_cases roms c
  · have hunique : Spells roms c n ↔ m = n :=
      ⟨fun hn => symRead_injective roms (hm.trans hn.symm), fun h => h ▸ hm⟩
    simp [hentry, hunique]
  · have hn : ¬ Spells roms c n := fun hn => hnone ⟨n, hn⟩
    simp [hentry, hn]

theorem invRead_eq_invalid_iff (roms : Roms) (c : Symbol) :
    invRead roms c = { valid := false, nib := 0 } ↔ ¬ InAlphabet roms c := by
  obtain ⟨m, hentry, hm⟩ | ⟨hentry, hnone⟩ := invRead_cases roms c
  · have hin : InAlphabet roms c := ⟨m, hm⟩
    simp [hentry, hin]
  · simp [hentry, hnone]

theorem alphabet_nodup_iff (v : Alphabet) :
    v.toList.Nodup ↔ ∀ i j : Fin 16, v[i] = v[j] → i = j := by
  simp [List.nodup_iff_injective_getElem, Function.Injective, Fin.forall_iff]

/-- Legality entry by entry: distinct (R20) and none of them lower-case (R6). -/
theorem alphabetLegal_iff_getElem (v : Alphabet) :
    alphabetLegal v = true ↔
      (∀ i j : Fin 16, v[i] = v[j] → i = j) ∧ ∀ i : Fin 16, isLower v[i] = false := by
  have hlower : (∀ c ∈ v.toList, isLower c = false) ↔ ∀ i : Fin 16, isLower v[i] = false := by
    simp [Vector.forall_mem_iff_forall_getElem, Fin.forall_iff]
  rw [alphabetLegal_iff, alphabet_nodup_iff, hlower]

theorem not_alphabetLegal_iff (v : Alphabet) :
    ¬ alphabetLegal v = true ↔
      (∃ i j : Fin 16, i ≠ j ∧ v[i] = v[j]) ∨ ∃ i : Fin 16, isLower v[i] = true := by
  rw [alphabetLegal_iff_getElem, not_and_or]
  simp [and_comm]

theorem Roms.build_of_legal {v : Alphabet} (h : alphabetLegal v = true) :
    Roms.build v = some (Roms.ofLegal v h) := dif_pos h

theorem Roms.build_eq_none_iff (v : Alphabet) : Roms.build v = none ↔ ¬ alphabetLegal v = true := by
  simp [Roms.build]

theorem Roms.symRom_of_build {v : Alphabet} {roms : Roms} (h : Roms.build v = some roms) : roms.symRom = v := by
  by_cases hv : alphabetLegal v = true
  · rw [Roms.build_of_legal hv, Option.some.injEq] at h
    exact h ▸ rfl
  · rw [(Roms.build_eq_none_iff v).2 hv] at h
    cases h

end Sys2Proof.Machine

/-! SUPPORT. The step of a passing action, of a presented request and of a placed one, and the state without a
response. -/

namespace Sys2Proof.Machine

theorem State.safe_of_response_none {s : State} (h : s.response = none) : s.safe = true := by
  simp [State.safe, h]

theorem step_of_pass {s t : State} (h : s.nextAction = .pass t) : step s = .next t := by
  simp [step, h]

theorem step_of_serve {s t : State} {req : Request} (h : s.nextAction = .serve req t) :
    step s = perform req t := by
  simp [step, h]

theorem nextAction_of_present {s : State} {port : Nat} {req : Request} {es : List Event}
    (h : s.schedule = .present port req :: es) :
    s.nextAction = .pass ({ s with schedule := es }.begin.accept port req) := by
  simp [State.nextAction, h]

/-- The due event finds the placed request first in the queue, so both leave again (log entry 5). -/
theorem nextAction_placeNext (s : State) (req : Request) :
    (s.placeNext req).nextAction = .serve req { s.begin with outPort := 0 } := rfl

theorem perform_of_decode {req : Request} {i : Instr} (h : decode req = .ok i) (s : State) :
    perform req s = exec i s := by
  simp [perform, h]

theorem decodeTableWord_eq_some_iff (nbits w : Nat) (i : Instr) :
    decodeTableWord nbits w = some i ↔ decode (Request.ofTableWord nbits w) = .ok i := by
  unfold decodeTableWord
  cases decode (Request.ofTableWord nbits w) <;> simp

end Sys2Proof.Machine

/-! SUPPORT. The statements about the state: its tables, its responses, acceptance, reset and a placed request
(spec/10_state.md). -/

namespace Sys2Proof.Machine

/-- Settles O8: an entry of INV_ROM is valid exactly with the nibble its code spells, and 0 where it spells none. -/
theorem invRomIsTheFoldedInverse : Obligations.InvRomIsTheFoldedInverse := fun roms c =>
  ⟨fun n hn => (invRead_eq_valid_iff roms c n).2 hn,
    fun hnone => (invRead_eq_invalid_iff roms c).2 fun ⟨n, hn⟩ => hnone n hn⟩

/-- Settles O9: a valid entry means that its code spells the nibble, and every stored symbol spells its own nibble
since it is its own normal form. -/
theorem tablesAgreeBothWays : Obligations.TablesAgreeBothWays := fun roms =>
  ⟨fun i => (invRead_eq_valid_iff roms _ i).2 (spells_symRead roms i),
    fun c i hentry => (invRead_eq_valid_iff roms c i).1 hentry,
    norm_symRead roms⟩

/-- Settles O10: building is refused exactly for an ALPHABET that is not legal, and legality is read entry by entry. -/
theorem illegalAlphabetIsRefused : Obligations.IllegalAlphabetIsRefused := by
  refine ⟨fun v => ?_, fun _ _ => Roms.symRom_of_build, fun roms i j hij h => ?_⟩
  · simp only [Roms.build_eq_none_iff, not_alphabetLegal_iff, isLower_iff]
  · exact hij (Fin.ext (roms.symRom_injective i.isLt j.isLt h))

/-- Settles O35: performing a request responds with a function of the request and the tables alone. -/
theorem responseDependsOnRequestAndTablesOnly : Obligations.ResponseDependsOnRequestAndTablesOnly := by
  intro req s s' t t' hroms ht ht'
  obtain ⟨f, hf⟩ := perform_responds req
  obtain rfl : s.respond (f s.roms) = t := by simpa [hf] using ht
  obtain rfl : s'.respond (f s'.roms) = t' := by simpa [hf] using ht'
  simp [hroms]

/-- Settles O33: no response is valid after reset. -/
theorem resetStateIsSafe : Obligations.ResetStateIsSafe := fun roms =>
  State.safe_of_response_none (State.resetWith_response roms)

/-- Settles O43: a presented request makes the step pass in the state that accepts it, whatever the state is. -/
theorem presentedRequestIsAlwaysAccepted : Obligations.PresentedRequestIsAlwaysAccepted :=
  fun _ _ _ _ hs => step_of_pass (nextAction_of_present hs)

/-- Settles O45: the reset state has the tables it is given, and the default ALPHABET is a legal one. -/
theorem resetStateContents : Obligations.ResetStateContents :=
  ⟨fun roms => ⟨State.resetWith_roms roms, State.resetWith_inflight roms, State.resetWith_response roms⟩,
    rfl, Roms.build_of_legal defaultAlphabet_legal⟩

/-- Settles O48: the placed request is served next, and its word decodes to the operation. -/
theorem placedWordIsPerformedNext : Obligations.PlacedWordIsPerformedNext := by
  intro s nbits w i hw
  calc step (s.withFetchWord nbits w)
      = perform (Request.ofTableWord nbits w) { s.begin with outPort := 0 } :=
        step_of_serve (nextAction_placeNext s _)
    _ = exec i { s.begin with outPort := 0 } :=
        perform_of_decode ((decodeTableWord_eq_some_iff nbits w i).1 hw) _

end Sys2Proof.Machine

/-! SUPPORT. What a step serves, the responses a port is owed and gets, and runs of steps
(spec/20_memory.md section 4, R36, R37; spec/70_reset_and_hazards.md R97). -/

namespace Sys2Proof.Machine

/-! ### Which request a step serves -/

theorem nextAction_of_oldest {s : State} {e : InFlight} {rest : List InFlight}
    (hs : s.schedule = []) (hq : s.inflight = e :: rest) :
    s.nextAction = s.begin.serving e rest := by
  simp [State.nextAction, hs, hq]

theorem nextAction_of_complete {s : State} {port : Nat} {es : List Event} {e : InFlight} {rest : List InFlight}
    (hs : s.schedule = .complete port :: es) (ht : takePort port s.inflight = some (e, rest)) :
    s.nextAction = { s with schedule := es }.begin.serving e rest := by
  simp [State.nextAction, hs, ht]

theorem nextAction_of_complete_none {s : State} {port : Nat} {es : List Event}
    (hs : s.schedule = .complete port :: es) (ht : takePort port s.inflight = none) :
    s.nextAction = .pass { s with schedule := es }.begin := by
  simp [State.nextAction, hs, ht]

theorem perform_of_decode_error {req : Request} {why : Illegal} (h : decode req = .error why) (s : State) :
    perform req s = .next (s.raise .illegalOp) := by
  simp [perform, h]

/-- R25, R36: in every state a request gets the response it gets alone, and nothing else changes. -/
theorem perform_eq_respond (req : Request) (s : State) :
    perform req s = .next (s.respond (aloneResponse s.roms req)) := by
  obtain ⟨f, hf⟩ := perform_responds req
  simp [aloneResponse, hf]

/-! ### Every step has a successor, with the same tables and one event less -/

theorem exists_step_eq_next (s : State) : ∃ t, step s = .next t := by
  cases h : s.nextAction with
  | pass t => exact ⟨t, step_of_pass h⟩
  | serve req u => exact ⟨_, (step_of_serve h).trans (perform_eq_respond req u)⟩

theorem step_roms_schedule {s t : State} (h : step s = .next t) :
    t.roms = s.roms ∧ t.schedule = s.schedule.tail := by
  obtain hpass | ⟨req, u, hserve, hu⟩ := step_cases h
  · obtain ⟨hs, -, rfl⟩ | ⟨port, req, es, hs, rfl⟩ | ⟨es, hs, rfl⟩ | ⟨port, es, hs, -, rfl⟩ :=
      nextAction_eq_pass hpass <;> simp [hs]
  · obtain ⟨e, before, after, es, -, -, rfl, hs⟩ := nextAction_eq_serve hserve
    obtain rfl := by simpa [perform_eq_respond] using hu
    obtain ⟨hs, rfl, -⟩ | ⟨hs, -⟩ := hs <;> simp [hs]

/-- A run of `k + 1` steps is a step and a run of `k` steps. -/
theorem run_succ_eq_next {s t : State} {k : Nat} (h : Sys2Proof.core.run (k + 1) s = .next t) :
    ∃ u, step s = .next u ∧ Sys2Proof.core.run k u = .next t := by
  obtain ⟨u, hu⟩ := exists_step_eq_next s
  exact ⟨u, hu, (run_succ_of_step k hu).symm.trans h⟩

theorem run_roms {k : Nat} {s t : State} (h : Sys2Proof.core.run k s = .next t) : t.roms = s.roms := by
  induction k generalizing s with
  | zero => cases h; rfl
  | succ k ih =>
    obtain ⟨u, hstep, hrun⟩ := run_succ_eq_next h
    exact (ih hrun).trans (step_roms_schedule hstep).1

/-! ### What a port gets, is owed and is presented with -/

theorem deliveredTo_of_response_none {s : State} (h : s.response = none) (port : Nat) :
    s.deliveredTo port = [] := by
  simp [State.deliveredTo, h]

theorem deliveredTo_respond (s : State) (r : Response) (port : Nat) :
    (s.respond r).deliveredTo port = if s.outPort = port then [r] else [] := rfl

theorem owed_of_inflight_nil {s : State} (h : s.inflight = []) (port : Nat) : s.owed port = [] := by
  simp [State.owed, h]

/-- What a port is owed depends on the tables and the queue alone. -/
theorem owed_congr {s t : State} (hroms : t.roms = s.roms) (hq : t.inflight = s.inflight) (port : Nat) :
    t.owed port = s.owed port := by
  simp [State.owed, hroms, hq]

/-- An accepted request is owed after all others of its port. -/
theorem owed_accept (s : State) (p : Nat) (req : Request) (port : Nat) :
    (s.accept p req).owed port = s.owed port ++ presentedTo s.roms port [.present p req] := by
  by_cases hp : p = port <;> simp [State.owed, presentedTo, hp]

/-- The oldest request of its port is owed before all others of that port, and to no other port. -/
theorem owed_eq_oldest_append {s t : State} {e : InFlight} {before after : List InFlight}
    (hs : s.inflight = before ++ e :: after) (ht : t.inflight = before ++ after) (hroms : t.roms = s.roms)
    (hbefore : ∀ x ∈ before, x.port ≠ e.port) (port : Nat) :
    s.owed port = (if e.port = port then [aloneResponse s.roms e.req] else []) ++ t.owed port := by
  by_cases hp : e.port = port
  · subst hp
    have hnone : before.filter (fun x => x.port == e.port) = [] := by simpa using hbefore
    simp [State.owed, hs, ht, hroms, hnone]
  · simp [State.owed, hs, ht, hroms, hp]

theorem presentedTo_append (roms : Roms) (port : Nat) (es es' : List Event) :
    presentedTo roms port (es ++ es') = presentedTo roms port es ++ presentedTo roms port es' := by
  induction es with
  | nil => rfl
  | cons event es ih =>
    cases event with
    | present p req => by_cases hp : p = port <;> simp [presentedTo, hp, ih]
    | complete p => simpa [presentedTo] using ih
    | reset => simpa [presentedTo] using ih

/-! ### Conservation of responses (R36, R37) -/

/-- A step that performs no operation delivers nothing, and a port is then owed what it was owed and presented. -/
theorem pass_conserves {s t : State} (h : s.nextAction = .pass t) (hreset : Event.reset ∉ s.schedule.take 1)
    (port : Nat) :
    t.deliveredTo port = [] ∧ t.owed port = s.owed port ++ presentedTo s.roms port (s.schedule.take 1) := by
  obtain ⟨hs, -, rfl⟩ | ⟨p, req, es, hs, rfl⟩ | ⟨es, hs, -⟩ | ⟨p, es, hs, -, rfl⟩ := nextAction_eq_pass h
  · refine ⟨deliveredTo_of_response_none rfl port, ?_⟩
    rw [hs, owed_congr (s := s) rfl rfl port]
    exact (List.append_nil _).symm
  · refine ⟨deliveredTo_of_response_none rfl port, ?_⟩
    rw [hs]
    exact owed_accept _ p req port
  · simp [hs] at hreset
  · refine ⟨deliveredTo_of_response_none rfl port, ?_⟩
    rw [hs, owed_congr (s := s) rfl rfl port]
    exact (List.append_nil _).symm

/-- A step that performs a request presents nothing, and delivers the first response its port is owed. -/
theorem serve_conserves {s t u : State} {req : Request} (h : s.nextAction = .serve req u)
    (ht : perform req u = .next t) (port : Nat) :
    t.deliveredTo port ++ t.owed port = s.owed port ∧ presentedTo s.roms port (s.schedule.take 1) = [] := by
  obtain ⟨e, before, after, es, hq, rfl, rfl, hs⟩ := nextAction_eq_serve h
  obtain rfl := by simpa [perform_eq_respond] using ht
  have hbefore : ∀ x ∈ before, x.port ≠ e.port := by
    obtain ⟨-, -, rfl⟩ | ⟨-, hb⟩ := hs
    · simp
    · exact hb
  constructor
  · rw [deliveredTo_respond]
    exact .symm (owed_eq_oldest_append hq (by rfl) (by rfl) hbefore port)
  · obtain ⟨hs, -⟩ | ⟨hs, -⟩ := hs <;> simp [hs, presentedTo]

theorem step_conserves {s t : State} (h : step s = .next t) (hreset : Event.reset ∉ s.schedule.take 1)
    (port : Nat) :
    t.deliveredTo port ++ t.owed port = s.owed port ++ presentedTo s.roms port (s.schedule.take 1) := by
  obtain hpass | ⟨req, u, hserve, hu⟩ := step_cases h
  · obtain ⟨hdelivered, howed⟩ := pass_conserves hpass hreset port
    rw [hdelivered, howed, List.nil_append]
  · obtain ⟨hserved, hpresented⟩ := serve_conserves hserve hu port
    rw [hserved, hpresented, List.append_nil]

/-- With nothing scheduled, every step takes the oldest request out of the queue, so the queue's length bounds the
drain. -/
theorem run_drains {s : State} {q : List InFlight} (hs : s.schedule = []) (hq : s.inflight = q) :
    ∃ t, Sys2Proof.core.run q.length s = .next t ∧ t.inflight = [] := by
  induction q generalizing s with
  | nil => exact ⟨s, run_zero s, hq⟩
  | cons e rest ih =>
    have hstep := (step_of_serve (nextAction_of_oldest hs hq)).trans (perform_eq_respond _ _)
    rw [List.length_cons, run_succ_of_step _ hstep]
    exact ih hs rfl

end Sys2Proof.Machine

/-! SUPPORT. The statements about steps, runs and the order of responses (spec/20_memory.md section 4, R30). -/

namespace Sys2Proof.Machine

/-- Settles O49, by induction on the number of steps: what the first step delivers and leaves owed is what was owed and
presented before it, and the rest of the run goes on from there with the same tables. -/
theorem eachRequesterGetsItsResponsesInOrder : Obligations.EachRequesterGetsItsResponsesInOrder := by
  intro k
  induction k with
  | zero =>
    intro s t port _ hrun
    cases hrun
    simp [deliveries, presentedTo]
  | succ k ih =>
    intro s t port hreset hrun
    obtain ⟨u, hstep, hrun⟩ := run_succ_eq_next hrun
    obtain ⟨hroms, hschedule⟩ := step_roms_schedule hstep
    have htake : s.schedule.take (k + 1) = s.schedule.take 1 ++ u.schedule.take k := by
      rw [hschedule, ← List.drop_one, ← List.take_add, Nat.add_comm]
    obtain ⟨hreset₁, hreset₂⟩ : Event.reset ∉ s.schedule.take 1 ∧ Event.reset ∉ u.schedule.take k := by
      simpa [htake] using hreset
    calc deliveries port (k + 1) s ++ t.owed port
        = u.deliveredTo port ++ (deliveries port k u ++ t.owed port) := by
          rw [deliveries_succ_of_step port k hstep, List.append_assoc]
      _ = (u.deliveredTo port ++ u.owed port) ++ presentedTo s.roms port (u.schedule.take k) := by
          rw [ih u t port hreset₂ hrun, hroms, List.append_assoc]
      _ = s.owed port ++ presentedTo s.roms port (s.schedule.take (k + 1)) := by
          rw [step_conserves hstep hreset₁ port, htake, presentedTo_append, List.append_assoc]

/-- Settles O47: no action of a step touches the tables, and a run is made of steps. -/
theorem tablesNeverChange : Obligations.TablesNeverChange :=
  ⟨fun _ _ hstep => (step_roms_schedule hstep).1, fun _ _ _ hrun => run_roms hrun⟩

/-- Settles O50: the queue drains in as many steps as it is long, and by O49 a port that is owed nothing in the end has
got all it was owed. -/
theorem queueDrainsInAsManySteps : Obligations.QueueDrainsInAsManySteps := by
  intro s hs
  obtain ⟨t, hrun, hempty⟩ := run_drains hs rfl
  refine ⟨t, hrun, hempty, fun port => ?_⟩
  have hconserved := eachRequesterGetsItsResponsesInOrder _ s t port (by simp [hs]) hrun
  simpa [hs, presentedTo, owed_of_inflight_nil hempty] using hconserved

/-- Settles O41: the oldest request is served, and performing it is `exec` of what it decodes to, or ILLEGAL_OP. -/
theorem stepPerformsTheOldestRequest : Obligations.StepPerformsTheOldestRequest := by
  intro s e rest hs hq
  have hstep := step_of_serve (nextAction_of_oldest hs hq)
  exact ⟨fun _ hi => hstep.trans (perform_of_decode hi _), fun _ hwhy => hstep.trans (perform_of_decode_error hwhy _)⟩

/-- Settles O42: what is taken from the queue for a port is its oldest request, and nothing where it has none. -/
theorem completionPerformsThePortsOldestRequest : Obligations.CompletionPerformsThePortsOldestRequest := by
  intro s port es hs
  constructor
  · rintro e before after hq rfl hbefore
    have htake := (takePort_eq_some e.port s.inflight e _).2 ⟨before, after, hq, rfl, rfl, hbefore⟩
    exact step_of_serve (nextAction_of_complete hs htake)
  · intro hnone
    exact step_of_pass (nextAction_of_complete_none hs ((takePort_eq_none port s.inflight).2 hnone))

end Sys2Proof.Machine

/-! SUPPORT. The flat layout of a request and the command words, read back by the decoder
(spec/30_encoding.md R42, R45 to R47). -/

namespace Sys2Proof

/-! ### Fields laid end to end -/

/-- A field is read back from the place it is laid at. -/
theorem extractLsb'_shiftLeft_setWidth_same {w n o : Nat} (x : BitVec w) (h : o + w ≤ n) :
    (x.setWidth n <<< o).extractLsb' o w = x := by
  ext i hi
  have hin : o + i < n := by omega
  simp [hin, hi]

/-- A field leaves every place beside its own 0. -/
theorem extractLsb'_shiftLeft_setWidth_disjoint {w n o a v : Nat} (x : BitVec w) (h : a + v ≤ o ∨ o + w ≤ a) :
    (x.setWidth n <<< o).extractLsb' a v = 0#v := by
  ext i hi
  obtain hbelow | habove := h
  · have hlt : a + i < o := by omega
    simp [hlt]
  · have hout : x.getLsbD (a + i - o) = false := BitVec.getLsbD_of_ge _ _ (by omega)
    simp [hout]

theorem extractLsb'_setWidth_same {w n : Nat} (x : BitVec w) (h : w ≤ n) : (x.setWidth n).extractLsb' 0 w = x := by
  simpa using extractLsb'_shiftLeft_setWidth_same (o := 0) x (by simpa using h)

theorem extractLsb'_setWidth_disjoint {w n a v : Nat} (x : BitVec w) (h : w ≤ a) :
    (x.setWidth n).extractLsb' a v = 0#v := by
  simpa using extractLsb'_shiftLeft_setWidth_disjoint (n := n) (o := 0) (v := v) x (.inr (by simpa using h))

theorem symbols_eta (v : Symbols) : #v[v[0], v[1], v[2], v[3], v[4], v[5], v[6], v[7]] = v := by
  ext i hi
  interval_cases i <;> rfl

/-- The places of the 14 fields do not overlap, so each of them holds its field. -/
theorem Request.ofBits_toBits (r : Request) : Request.ofBits r.toBits = r := by
  simp (disch := omega) only [Request.ofBits, Request.toBits, BitVec.extractLsb'_or, extractLsb'_setWidth_same,
    extractLsb'_setWidth_disjoint, extractLsb'_shiftLeft_setWidth_same, extractLsb'_shiftLeft_setWidth_disjoint,
    BitVec.or_zero, BitVec.zero_or, symbols_eta]

theorem Request.ofTableWord_toBits (r : Request) : Request.ofTableWord requestBits r.toBits.toNat = r := by
  have hlow : r.toBits.toNat % 2 ^ requestBits = r.toBits.toNat := Nat.mod_eq_of_lt r.toBits.isLt
  rw [Request.ofTableWord, hlow, BitVec.ofNat_toNat, BitVec.setWidth_eq, Request.ofBits_toBits]

/-! ### The operation of each command word (R46) -/

section
variable {req : Request}

theorem decode_symfor (h : req.cmd = 0x00) : decode req = .ok (.symfor req.nibIn) := by
  rw [decode, h]; rfl

theorem decode_nibfor (h : req.cmd = 0x01) : decode req = .ok (.nibfor req.isym[0]) := by
  rw [decode, h]; rfl

theorem decode_decode (h : req.cmd = 0x02) : decode req = .ok (.decode req.len req.isym) := by
  rw [decode, h]; rfl

theorem decode_encode6 (h : req.cmd = 0x03) : decode req = .ok (.encode6 req.aIn req.dIn) := by
  rw [decode, h]; rfl

theorem decode_encode6Alt (h : req.cmd = 0x13) : decode req = .ok (.encode6Alt req.aIn req.dIn) := by
  rw [decode, h]; rfl

theorem decode_encode8 (h : req.cmd = 0x0B) : decode req = .ok (.encode8 req.aIn req.dIn req.cIn) := by
  rw [decode, h]; rfl

theorem decode_encode8Alt (h : req.cmd = 0x1B) : decode req = .ok (.encode8Alt req.aIn req.dIn req.cIn) := by
  rw [decode, h]; rfl

end

/-- An encoded operation has the command word of its row in the operation map, and the fields it reads. -/
theorem decode_encode (i : Instr) : decode (encode i) = .ok i := by
  cases i with
  | symfor nib => exact decode_symfor rfl
  | nibfor sym => exact decode_nibfor rfl
  | decode len isym => exact decode_decode rfl
  | encode6 a d => exact decode_encode6 rfl
  | encode6Alt a d => exact decode_encode6Alt rfl
  | encode8 a d c => exact decode_encode8 rfl
  | encode8Alt a d c => exact decode_encode8Alt rfl

theorem decodeTableWord_encode (i : Instr) : decodeTableWord requestBits (encode i).toBits.toNat = some i := by
  rw [Machine.decodeTableWord_eq_some_iff, Request.ofTableWord_toBits, decode_encode]

end Sys2Proof

namespace Sys2Proof.Machine

/-! ### Legal and illegal command words (R46, R47) -/

theorem mem_legalCommands_iff (w : CmdWord) :
    w ∈ legalCommands ↔
      w = 0x00 ∨ w = 0x01 ∨ w = 0x02 ∨ w = 0x03 ∨ w = 0x13 ∨ w = 0x0B ∨ w = 0x1B := by
  simp [legalCommands]

theorem exists_decode_eq_ok {req : Request} (h : req.cmd ∈ legalCommands) :
    ∃ i, decode req = .ok i ∧ (encode i).cmd = req.cmd := by
  obtain h | h | h | h | h | h | h := (mem_legalCommands_iff _).1 h
  · exact ⟨_, decode_symfor h, h.symm⟩
  · exact ⟨_, decode_nibfor h, h.symm⟩
  · exact ⟨_, decode_decode h, h.symm⟩
  · exact ⟨_, decode_encode6 h, h.symm⟩
  · exact ⟨_, decode_encode6Alt h, h.symm⟩
  · exact ⟨_, decode_encode8 h, h.symm⟩
  · exact ⟨_, decode_encode8Alt h, h.symm⟩

/-- The three kinds of illegal command word that R47 lists, over all 256 words. -/
theorem cmd_fields_of_illegal : ∀ w : CmdWord, w ∉ legalCommands →
    cmdRsv w ≠ 0 ∨ (cmdOp w ≠ 3 ∧ (4 ≤ cmdOp w ∨ (cmdA w || cmdC w) = true)) := by
  decide

theorem exists_decode_eq_error {req : Request} (h : req.cmd ∉ legalCommands) : ∃ why, decode req = .error why := by
  obtain hrsv | ⟨hop, hunassigned | hmodifier⟩ := cmd_fields_of_illegal _ h <;> unfold decode
  · exact ⟨_, if_pos hrsv⟩
  · rw [if_neg hop, if_pos hunassigned]
    split <;> exact ⟨_, rfl⟩
  · rw [if_neg hop, if_pos hmodifier]
    split_ifs <;> exact ⟨_, rfl⟩

theorem mem_legalCommands_of_decode {req : Request} {i : Instr} (h : decode req = .ok i) :
    req.cmd ∈ legalCommands := by
  by_contra hillegal
  obtain ⟨why, hwhy⟩ := exists_decode_eq_error hillegal
  cases h.symm.trans hwhy

theorem perform_of_illegal {req : Request} (h : req.cmd ∉ legalCommands) (s : State) :
    perform req s = .next (s.raise .illegalOp) := by
  obtain ⟨why, hwhy⟩ := exists_decode_eq_error h
  exact perform_of_decode_error hwhy s

end Sys2Proof.Machine

/-! SUPPORT. What each operation can answer, and the response of a request through it
(spec/30_encoding.md R48, R49; spec/60_exceptions.md R87). -/

namespace Sys2Proof.Machine

/-! ### The symbols of a code string -/

theorem invRead_valid_iff (roms : Roms) (c : Symbol) : (invRead roms c).valid = true ↔ InAlphabet roms c := by
  obtain ⟨n, hentry, hn⟩ | ⟨hentry, hnone⟩ := invRead_cases roms c
  · simpa [hentry] using ⟨n, hn⟩
  · simpa [hentry] using hnone

theorem lengthLegal_iff (len : BitVec 8) : lengthLegal len = true ↔ len = 6 ∨ len = 8 := by
  simp [lengthLegal]

section
variable {roms : Roms} {len : BitVec 8} {isym : Symbols}

theorem decodeResult_of_length (h : ¬ (len = 6 ∨ len = 8)) :
    decodeResult roms len isym = .error (.invalidLength len) := by
  simp [decodeResult, mt (lengthLegal_iff len).1 h]

theorem decodeResult_of_lookup_error {e : ErrorInfo} (h : len = 6 ∨ len = 8)
    (hlookup : lookupFrom roms 0 (isym.toList.take len.toNat) = .error e) :
    decodeResult roms len isym = .error e := by
  simp [decodeResult, (lengthLegal_iff len).2 h, hlookup]

theorem decodeResult_of_lookup_ok {ns : List Nibble} (h : len = 6 ∨ len = 8)
    (hlookup : lookupFrom roms 0 (isym.toList.take len.toNat) = .ok ns) :
    decodeResult roms len isym =
      .ok (if len == 6 then decodeFields6 (slotsOf ns) else decodeFields8 (slotsOf ns)) := by
  simp only [decodeResult, (lengthLegal_iff len).2 h, hlookup, Bool.not_true, Bool.false_eq_true, if_false]

end

/-- R48: beyond the symbols below a legal LEN, DECODE reads none. -/
theorem decodeResult_congr {roms : Roms} {len : BitVec 8} {isym isym' : Symbols}
    (h : len = 6 ∨ len = 8 → ∀ i : Fin 8, i.val < len.toNat → isym'[i] = isym[i]) :
    decodeResult roms len isym' = decodeResult roms len isym := by
  by_cases hlen : len = 6 ∨ len = 8
  · have htake : isym'.toList.take len.toNat = isym.toList.take len.toNat := by
      apply List.ext_getElem (by simp)
      intro i hi _
      simp only [List.length_take, Vector.length_toList, lt_min_iff] at hi
      simpa using h hlen ⟨i, hi.2⟩ hi.1
    simp only [decodeResult, htake]
  · rw [decodeResult_of_length hlen, decodeResult_of_length hlen]

/-! ### The outcomes of each operation -/

theorem nibforResult_cases (roms : Roms) (sym : Symbol) :
    (∃ n, nibforResult roms sym = .ok { zeroResponse with nib := n }) ∨
      nibforResult roms sym = .error (.invalidSymbol 0 sym) := by
  unfold nibforResult
  split
  · exact .inl ⟨_, rfl⟩
  · exact .inr rfl

theorem decodeResult_cases (roms : Roms) (len : BitVec 8) (isym : Symbols) :
    (∃ n, decodeResult roms len isym = .ok (decodeFields6 n) ∨ decodeResult roms len isym = .ok (decodeFields8 n)) ∨
      decodeResult roms len isym = .error (.invalidLength len) ∨
      ∃ index char, decodeResult roms len isym = .error (.invalidSymbol index char) := by
  by_cases hlen : len = 6 ∨ len = 8
  · cases hlookup : lookupFrom roms 0 (isym.toList.take len.toNat) with
    | ok ns =>
      rw [decodeResult_of_lookup_ok hlen hlookup]
      refine .inl ⟨slotsOf ns, ?_⟩
      split
      · exact .inl rfl
      · exact .inr rfl
    | error e =>
      obtain ⟨before, c, _, -, -, -, rfl⟩ := (lookupFrom_eq_error _ _ _ _).1 hlookup
      exact .inr (.inr ⟨_, c, decodeResult_of_lookup_error hlen hlookup⟩)
  · exact .inr (.inl (decodeResult_of_length hlen))

theorem rangeCheck_cases (a d : Operand) (c : Option Operand) :
    rangeCheck a d c = .ok () ∨ ∃ field value, rangeCheck a d c = .error (.outOfRange field value) := by
  unfold rangeCheck
  split_ifs
  · exact .inr ⟨_, _, rfl⟩
  · exact .inr ⟨_, _, rfl⟩
  · cases c with
    | none => exact .inl rfl
    | some v =>
      dsimp only
      split
      · exact .inr ⟨_, _, rfl⟩
      · exact .inl rfl

theorem encode6Result_cases (roms : Roms) (alt : Bool) (a d : Operand) :
    encode6Result roms alt a d = .ok (emit roms (encodeSlots6 alt (addressOf a) (byteOf d))) ∨
      ∃ field value, encode6Result roms alt a d = .error (.outOfRange field value) := by
  obtain h | ⟨field, value, h⟩ := rangeCheck_cases a d none
  · simp [encode6Result, h]
  · simp [encode6Result, h]

theorem encode8Result_cases (roms : Roms) (alt : Bool) (a d c : Operand) :
    encode8Result roms alt a d c = .ok (emit roms (encodeSlots8 alt (addressOf a) (byteOf d) (byteOf c))) ∨
      ∃ field value, encode8Result roms alt a d c = .error (.outOfRange field value) := by
  obtain h | ⟨field, value, h⟩ := rangeCheck_cases a d (some c)
  · simp [encode8Result, h]
  · simp [encode8Result, h]

/-! ### The response of a request -/

/-- What the meaning of an operation concludes with: its response or its error. -/
def execResult (roms : Roms) : Instr → Except ErrorInfo Response
  | .symfor nib => .ok (symforResponse roms nib)
  | .nibfor sym => nibforResult roms sym
  | .decode len isym => decodeResult roms len isym
  | .encode6 a d => encode6Result roms false a d
  | .encode6Alt a d => encode6Result roms true a d
  | .encode8 a d c => encode8Result roms false a d c
  | .encode8Alt a d c => encode8Result roms true a d c

theorem exec_eq_conclude (i : Instr) (s : State) : exec i s = .next (s.conclude (execResult s.roms i)) := by
  cases i <;> rfl

theorem aloneResponse_of_decode {req : Request} {i : Instr} (h : decode req = .ok i) (roms : Roms) :
    aloneResponse roms req = outcomeResponse (execResult roms i) := by
  simp [aloneResponse, perform_of_decode h, exec_eq_conclude]

theorem aloneResponse_of_illegal {req : Request} (h : req.cmd ∉ legalCommands) (roms : Roms) :
    aloneResponse roms req = errorResponse .illegalOp := by
  simp [aloneResponse, perform_of_illegal h]

theorem response_of_perform {req : Request} {s t : State} {r : Response} (ht : perform req s = .next t)
    (hr : t.response = some r) : r = aloneResponse s.roms req := by
  obtain rfl : s.respond (aloneResponse s.roms req) = t := by simpa [perform_eq_respond] using ht
  simpa [eq_comm] using hr

/-! ### The status of a response (R49) -/

/-- R49: the command words each status comes from. -/
def StatusComesFrom (cmd : CmdWord) : Status → Prop
  | .ok => cmd ∈ legalCommands
  | .invalidLength => cmd = 0x02
  | .invalidSymbol => cmd ∈ [(0x01 : CmdWord), 0x02]
  | .outOfRange => cmd ∈ [(0x03 : CmdWord), 0x13, 0x0B, 0x1B]
  | .illegalOp => cmd ∉ legalCommands

theorem StatusComesFrom.legal {cmd : CmdWord} {st : Status} (h : StatusComesFrom cmd st) (hst : st ≠ .illegalOp) :
    cmd ∈ legalCommands := by
  cases st with
  | ok => exact h
  | invalidLength => obtain rfl : cmd = 0x02 := h; decide
  | invalidSymbol => exact (by decide : [(0x01 : CmdWord), 0x02] ⊆ legalCommands) h
  | outOfRange => exact (by decide : [(0x03 : CmdWord), 0x13, 0x0B, 0x1B] ⊆ legalCommands) h
  | illegalOp => exact absurd rfl hst

theorem nibforResult_status (roms : Roms) (sym : Symbol) :
    StatusComesFrom 0x01 (outcomeResponse (nibforResult roms sym)).status := by
  obtain ⟨n, h⟩ | h := nibforResult_cases roms sym <;> rw [h]
  · exact (by decide : (0x01 : CmdWord) ∈ legalCommands)
  · exact List.mem_cons_self

theorem decodeResult_status (roms : Roms) (len : BitVec 8) (isym : Symbols) :
    StatusComesFrom 0x02 (outcomeResponse (decodeResult roms len isym)).status := by
  have hlegal : (0x02 : CmdWord) ∈ legalCommands := by decide
  obtain ⟨n, h | h⟩ | h | ⟨index, char, h⟩ := decodeResult_cases roms len isym <;> rw [h]
  · exact hlegal
  · exact hlegal
  · exact (rfl : (0x02 : CmdWord) = 0x02)
  · exact (by decide : (0x02 : CmdWord) ∈ [(0x01 : CmdWord), 0x02])

section
variable {cmd : CmdWord} (hcmd : cmd ∈ [(0x03 : CmdWord), 0x13, 0x0B, 0x1B])
include hcmd

theorem encode6Result_status (roms : Roms) (alt : Bool) (a d : Operand) :
    StatusComesFrom cmd (outcomeResponse (encode6Result roms alt a d)).status := by
  have hrange : StatusComesFrom cmd .outOfRange := hcmd
  obtain h | ⟨field, value, h⟩ := encode6Result_cases roms alt a d <;> rw [h]
  · exact hrange.legal nofun
  · exact hrange

theorem encode8Result_status (roms : Roms) (alt : Bool) (a d c : Operand) :
    StatusComesFrom cmd (outcomeResponse (encode8Result roms alt a d c)).status := by
  have hrange : StatusComesFrom cmd .outOfRange := hcmd
  obtain h | ⟨field, value, h⟩ := encode8Result_cases roms alt a d c <;> rw [h]
  · exact hrange.legal nofun
  · exact hrange

end

theorem aloneResponse_status (roms : Roms) (req : Request) :
    StatusComesFrom req.cmd (aloneResponse roms req).status := by
  by_cases hlegal : req.cmd ∈ legalCommands
  · obtain h | h | h | h | h | h | h := (mem_legalCommands_iff _).1 hlegal
    · rwa [aloneResponse_of_decode (decode_symfor h)]
    · rw [aloneResponse_of_decode (decode_nibfor h), h]
      exact nibforResult_status roms _
    · rw [aloneResponse_of_decode (decode_decode h), h]
      exact decodeResult_status roms _ _
    · rw [aloneResponse_of_decode (decode_encode6 h), h]
      exact encode6Result_status (by decide) roms false _ _
    · rw [aloneResponse_of_decode (decode_encode6Alt h), h]
      exact encode6Result_status (by decide) roms true _ _
    · rw [aloneResponse_of_decode (decode_encode8 h), h]
      exact encode8Result_status (by decide) roms false _ _ _
    · rw [aloneResponse_of_decode (decode_encode8Alt h), h]
      exact encode8Result_status (by decide) roms true _ _ _
  · rwa [aloneResponse_of_illegal hlegal]

/-! ### The shape of a response (R44, R50, R87) -/

theorem wellShaped_errorResponse (e : ErrorInfo) : wellShaped (errorResponse e) = true := by
  cases e with
  | outOfRange field value => cases field <;> rfl
  | _ => rfl

/-- A success is well shaped when its error fields are 0, its symbols fit OLEN and COMP is 0 without COMPV. -/
theorem wellShaped_of_ok {r : Response} (hst : r.status = .ok)
    (herr : r.errIndex = 0 ∧ r.errChar = 0 ∧ r.errField = 0 ∧ r.errValue = 0)
    (hout : outputFits r = true) (hcomp : r.compv = true ∨ r.comp = 0) : wellShaped r = true := by
  obtain ⟨hindex, hchar, hfield, hvalue⟩ := herr
  simpa [wellShaped, errorFieldsFit, hst, hindex, hchar, hfield, hvalue, hout] using hcomp

theorem outputFits_of {r : Response} (hlen : r.olen = 0 ∨ r.olen = 1 ∨ r.olen = 6 ∨ r.olen = 8)
    (hzero : ∀ i : Fin 8, r.olen.toNat ≤ i.val → r.osym[i] = 0) : outputFits r = true := by
  simpa [outputFits, or_assoc] using And.intro hlen hzero

theorem outputFits_of_no_symbols {r : Response} (hlen : r.olen = 0) (hsym : r.osym = Vector.replicate 8 0) :
    outputFits r = true :=
  outputFits_of (.inl hlen) (by simp [hsym])

theorem wellShaped_symforResponse (roms : Roms) (nib : Nibble) : wellShaped (symforResponse roms nib) = true := by
  refine wellShaped_of_ok rfl ⟨rfl, rfl, rfl, rfl⟩ (outputFits_of (.inr (.inl rfl)) fun i hi => ?_) (.inr rfl)
  fin_cases i
  · cases hi
  all_goals rfl

/-- Slot `i` of eight slots filled from a list holds the list's entry `i`, or 0 beyond its end. -/
theorem slots_getElem (cs : List Symbol) (i : Fin 8) :
    (#v[cs.getD 0 0, cs.getD 1 0, cs.getD 2 0, cs.getD 3 0, cs.getD 4 0, cs.getD 5 0, cs.getD 6 0,
      cs.getD 7 0] : Symbols)[i] = cs.getD i.val 0 := by
  fin_cases i <;> rfl

theorem emit_osym_getElem (roms : Roms) (ns : List Nibble) (i : Fin 8) :
    (emit roms ns).osym[i] = (ns.map (symRead roms)).getD i.val 0 :=
  slots_getElem _ i

theorem wellShaped_emit (roms : Roms) {ns : List Nibble} (h : ns.length = 6 ∨ ns.length = 8) :
    wellShaped (emit roms ns) = true := by
  have hlen : (emit roms ns).olen = 6 ∨ (emit roms ns).olen = 8 :=
    h.imp (congrArg (BitVec.ofNat 4)) (congrArg (BitVec.ofNat 4))
  have holen : (emit roms ns).olen.toNat = ns.length := by
    obtain h | h := h <;> simp [emit, h]
  refine wellShaped_of_ok rfl ⟨rfl, rfl, rfl, rfl⟩ (outputFits_of (.inr (.inr hlen)) fun i hi => ?_) (.inr rfl)
  rw [emit_osym_getElem]
  exact List.getD_eq_default _ _ (by simpa [holen] using hi)

theorem wellShaped_decodeFields6 (n : Slots) : wellShaped (decodeFields6 n) = true :=
  wellShaped_of_ok rfl ⟨rfl, rfl, rfl, rfl⟩ (outputFits_of_no_symbols rfl rfl) (.inr rfl)

theorem wellShaped_decodeFields8 (n : Slots) : wellShaped (decodeFields8 n) = true :=
  wellShaped_of_ok rfl ⟨rfl, rfl, rfl, rfl⟩ (outputFits_of_no_symbols rfl rfl) (.inl rfl)

theorem wellShaped_nibforResult (roms : Roms) (sym : Symbol) :
    wellShaped (outcomeResponse (nibforResult roms sym)) = true := by
  obtain ⟨n, h⟩ | h := nibforResult_cases roms sym <;> rw [h]
  · exact wellShaped_of_ok rfl ⟨rfl, rfl, rfl, rfl⟩ (outputFits_of_no_symbols rfl rfl) (.inr rfl)
  · exact wellShaped_errorResponse _

theorem wellShaped_decodeResult (roms : Roms) (len : BitVec 8) (isym : Symbols) :
    wellShaped (outcomeResponse (decodeResult roms len isym)) = true := by
  obtain ⟨n, h | h⟩ | h | ⟨index, char, h⟩ := decodeResult_cases roms len isym <;> rw [h]
  · exact wellShaped_decodeFields6 n
  · exact wellShaped_decodeFields8 n
  · exact wellShaped_errorResponse _
  · exact wellShaped_errorResponse _

theorem wellShaped_encode6Result (roms : Roms) (alt : Bool) (a d : Operand) :
    wellShaped (outcomeResponse (encode6Result roms alt a d)) = true := by
  obtain h | ⟨field, value, h⟩ := encode6Result_cases roms alt a d <;> rw [h]
  · exact wellShaped_emit roms (.inl rfl)
  · exact wellShaped_errorResponse _

theorem wellShaped_encode8Result (roms : Roms) (alt : Bool) (a d c : Operand) :
    wellShaped (outcomeResponse (encode8Result roms alt a d c)) = true := by
  obtain h | ⟨field, value, h⟩ := encode8Result_cases roms alt a d c <;> rw [h]
  · exact wellShaped_emit roms (.inr rfl)
  · exact wellShaped_errorResponse _

theorem wellShaped_execResult (roms : Roms) (i : Instr) :
    wellShaped (outcomeResponse (execResult roms i)) = true := by
  cases i with
  | symfor nib => exact wellShaped_symforResponse roms nib
  | nibfor sym => exact wellShaped_nibforResult roms sym
  | decode len isym => exact wellShaped_decodeResult roms len isym
  | encode6 a d => exact wellShaped_encode6Result roms false a d
  | encode6Alt a d => exact wellShaped_encode6Result roms true a d
  | encode8 a d c => exact wellShaped_encode8Result roms false a d c
  | encode8Alt a d c => exact wellShaped_encode8Result roms true a d c

theorem wellShaped_aloneResponse (roms : Roms) (req : Request) : wellShaped (aloneResponse roms req) = true := by
  by_cases hlegal : req.cmd ∈ legalCommands
  · obtain ⟨i, hi, -⟩ := exists_decode_eq_ok hlegal
    rw [aloneResponse_of_decode hi]
    exact wellShaped_execResult roms i
  · rw [aloneResponse_of_illegal hlegal]
    exact wellShaped_errorResponse _

theorem response_eq_none_of_pass {s t : State} (h : s.nextAction = .pass t) : t.response = none := by
  obtain ⟨-, -, rfl⟩ | ⟨_, _, _, -, rfl⟩ | ⟨_, -, rfl⟩ | ⟨_, _, -, -, rfl⟩ := nextAction_eq_pass h <;> rfl

/-! ### When DECODE succeeds (R56) -/

theorem decodeResult_status_ok_iff (roms : Roms) (len : BitVec 8) (isym : Symbols) :
    (outcomeResponse (decodeResult roms len isym)).status = .ok ↔
      (len = 6 ∨ len = 8) ∧ ∀ c ∈ isym.toList.take len.toNat, InAlphabet roms c := by
  by_cases hlen : len = 6 ∨ len = 8
  · have hvalid : (∀ c ∈ isym.toList.take len.toNat, InAlphabet roms c) ↔
        ∃ ns, lookupFrom roms 0 (isym.toList.take len.toNat) = .ok ns := by
      simp [lookupFrom_eq_ok, invRead_valid_iff]
    rw [hvalid]
    cases hlookup : lookupFrom roms 0 (isym.toList.take len.toNat) with
    | ok ns =>
      rw [decodeResult_of_lookup_ok hlen hlookup]
      have hst : (outcomeResponse (.ok (if len == 6 then decodeFields6 (slotsOf ns) else
          decodeFields8 (slotsOf ns)))).status = .ok := by
        split <;> rfl
      exact iff_of_true hst ⟨hlen, ns, rfl⟩
    | error e =>
      obtain ⟨_, c, _, -, -, -, rfl⟩ := (lookupFrom_eq_error _ _ _ _).1 hlookup
      rw [decodeResult_of_lookup_error hlen hlookup]
      exact iff_of_false nofun fun ⟨_, _, h⟩ => nomatch h
  · rw [decodeResult_of_length hlen]
    exact iff_of_false nofun fun h => hlen h.1

end Sys2Proof.Machine

/-! SUPPORT. The request a line stands for (spec/30_encoding.md R54, R55). -/

namespace Sys2Proof.Machine

/-- Every line, once expanded, asks for an operation. -/
theorem exists_instrOf_expand (line : Asm) : ∃ i, instrOf (expand line) = some i := by
  cases line with
  | encode a d c => cases c <;> exact ⟨_, rfl⟩
  | encodeAlt a d c => cases c <;> exact ⟨_, rfl⟩
  | _ => exact ⟨_, rfl⟩

theorem assemble_eq_encode {line : Asm} {i : Instr} (hwf : line.wf = true) (hi : instrOf (expand line) = some i) :
    assemble line = some (encode i) := by
  simp [assemble, hwf, hi]

/-- R55 for one line: a line is well formed exactly when its expansion is, so both stand for the same request. -/
theorem assemble_expand (line : Asm) : assemble (expand line) = assemble line := by
  cases line with
  | encode a d c => cases c <;> simp [assemble, expand, Asm.wf]
  | encodeAlt a d c => cases c <;> simp [assemble, expand, Asm.wf]
  | _ => rfl

/-! ### Numbers on their ports (log entry 7) -/

theorem fitsUnsigned_iff (w : Nat) (x : Int) : fitsUnsigned w x = true ↔ 0 ≤ x ∧ x < 2 ^ w := by
  simp [fitsUnsigned]

theorem fitsOperand_iff (x : Int) : fitsOperand x = true ↔ -2 ^ 31 ≤ x ∧ x < 2 ^ 31 := by
  simp [fitsOperand]

theorem toNat_ofInt_of_fitsUnsigned {w : Nat} {x : Int} (h : fitsUnsigned w x = true) :
    ((BitVec.ofInt w x).toNat : Int) = x := by
  obtain ⟨hlow, hhigh⟩ := (fitsUnsigned_iff w x).1 h
  have hmod : x % (2 ^ w : Int) = x := Int.emod_eq_of_lt hlow hhigh
  simp [BitVec.toNat_ofInt, hmod, hlow]

theorem toInt_ofInt_of_fitsOperand {x : Int} (h : fitsOperand x = true) : (BitVec.ofInt 32 x).toInt = x := by
  obtain ⟨hlow, hhigh⟩ := (fitsOperand_iff x).1 h
  rw [BitVec.toInt_ofInt]
  exact Int.bmod_eq_of_le (by simpa using hlow) (by simpa using hhigh)

theorem toNat_ofNat_char {ch : Char} (h : ch.toNat < 128) : (BitVec.ofNat 8 ch.toNat).toNat = ch.toNat :=
  (BitVec.toNat_ofNat _ _).trans (Nat.mod_eq_of_lt (by omega))

theorem toNat_ofNat_length {str : List Char} (h : str.length ≤ 255) :
    (BitVec.ofNat 8 str.length).toNat = str.length :=
  (BitVec.toNat_ofNat _ _).trans (Nat.mod_eq_of_lt (by omega))

/-! ### The symbols of a string and of a list of codes -/

theorem symbolsOfString_getElem_of_lt {str : List Char} (i : Fin 8) (h : i.val < str.length) :
    (symbolsOfString str)[i] = BitVec.ofNat 8 str[i.val].toNat :=
  (slots_getElem _ i).trans (by simp [h])

theorem symbolsOfString_getElem_of_le {str : List Char} (i : Fin 8) (h : str.length ≤ i.val) :
    (symbolsOfString str)[i] = 0 :=
  (slots_getElem _ i).trans (by simp [h])

theorem symbolsOfString_getElem_toNat {str : List Char} (i : Fin 8) (h : i.val < str.length)
    (hascii : str[i.val].toNat < 128) : ((symbolsOfString str)[i]).toNat = str[i.val].toNat := by
  rw [symbolsOfString_getElem_of_lt i h, toNat_ofNat_char hascii]

theorem symbolsOfCodes_getElem_toNat {codes : List Int} (i : Fin 8) (h : i.val < codes.length)
    (hfit : fitsUnsigned 8 codes[i.val] = true) : (((symbolsOfCodes codes)[i]).toNat : Int) = codes[i.val] := by
  have hslot : (symbolsOfCodes codes)[i] = BitVec.ofInt 8 codes[i.val] := (slots_getElem _ i).trans (by simp [h])
  rw [hslot, toNat_ofInt_of_fitsUnsigned hfit]

theorem symbolsOfString_toList_take {str : List Char} (h : str.length ≤ 8) :
    (symbolsOfString str).toList.take str.length = str.map fun ch => BitVec.ofNat 8 ch.toNat := by
  apply List.ext_getElem (by simpa using h)
  intro i _ hi
  rw [List.length_map] at hi
  simpa using symbolsOfString_getElem_of_lt ⟨i, by omega⟩ hi

end Sys2Proof.Machine

/-! SUPPORT. The statements about requests, responses and request lines (spec/30_encoding.md). -/

namespace Sys2Proof.Machine

/-- Settles O2: the layout is read back whole, and the decoder reads the operation from its request. -/
theorem decodeOfEncodeIsTheOperation : Obligations.DecodeOfEncodeIsTheOperation :=
  decodeTableWord_encode

/-- Settles O32: a step that passes delivers nothing, and one that performs a request delivers the response the request
gets alone, which is an error's or the success of one operation. -/
theorem everyStepDeliversAWellShapedResponse : Obligations.EveryStepDeliversAWellShapedResponse := by
  intro s t hstep
  obtain hpass | ⟨req, u, -, hu⟩ := step_cases hstep
  · exact State.safe_of_response_none (response_eq_none_of_pass hpass)
  · obtain rfl : u.respond (aloneResponse u.roms req) = t := by simpa [perform_eq_respond] using hu
    exact wellShaped_aloneResponse u.roms req

/-- Settles O5: each legal command word decodes to the operation of its row. -/
theorem legalCommandPerformsItsOperation : Obligations.LegalCommandPerformsItsOperation := by
  intro req s hlegal
  obtain ⟨i, hi, hcmd⟩ := exists_decode_eq_ok hlegal
  exact ⟨i, hi, hcmd, perform_of_decode hi s⟩

/-- Settles O6: an operation other than DECODE carries only what it reads, DECODE looks up only the symbols below a
legal LEN, and an illegal command word is answered alike whatever the other fields are. -/
theorem unreadFieldsChangeNothing : Obligations.UnreadFieldsChangeNothing := by
  intro req req' s hcmd hsymfor hnibfor hdecode hencode hencode8
  by_cases hlegal : req.cmd ∈ legalCommands
  · obtain h | h | h | h | h | h | h := (mem_legalCommands_iff _).1 hlegal
    · rw [perform_of_decode (decode_symfor h), perform_of_decode (decode_symfor (hcmd.trans h)), hsymfor h]
    · rw [perform_of_decode (decode_nibfor h), perform_of_decode (decode_nibfor (hcmd.trans h)), hnibfor h]
    · obtain ⟨hlen, hsymbols⟩ := hdecode h
      rw [perform_of_decode (decode_decode h), perform_of_decode (decode_decode (hcmd.trans h)), exec_eq_conclude,
        exec_eq_conclude, execResult, execResult, hlen, decodeResult_congr hsymbols]
    · obtain ⟨ha, hd⟩ := hencode (by simp [h])
      rw [perform_of_decode (decode_encode6 h), perform_of_decode (decode_encode6 (hcmd.trans h)), ha, hd]
    · obtain ⟨ha, hd⟩ := hencode (by simp [h])
      rw [perform_of_decode (decode_encode6Alt h), perform_of_decode (decode_encode6Alt (hcmd.trans h)), ha, hd]
    · obtain ⟨ha, hd⟩ := hencode (by simp [h])
      rw [perform_of_decode (decode_encode8 h), perform_of_decode (decode_encode8 (hcmd.trans h)), ha, hd,
        hencode8 (by simp [h])]
    · obtain ⟨ha, hd⟩ := hencode (by simp [h])
      rw [perform_of_decode (decode_encode8Alt h), perform_of_decode (decode_encode8Alt (hcmd.trans h)), ha, hd,
        hencode8 (by simp [h])]
  · rw [perform_of_illegal hlegal, perform_of_illegal (hcmd ▸ hlegal)]

/-- Settles O31: the response is the one the request gets alone, whose status names its command words. -/
theorem eachStatusFromItsOperations : Obligations.EachStatusFromItsOperations := by
  intro req s t r ht hr
  have hfrom : StatusComesFrom req.cmd r.status := response_of_perform ht hr ▸ aloneResponse_status s.roms req
  cases hst : r.status with
  | illegalOp =>
    have hillegal : req.cmd ∉ legalCommands := by rwa [hst] at hfrom
    simp [statusCode, hillegal]
  | ok =>
    have hlegal := hfrom.legal (by simp [hst])
    simp [statusCode, hlegal]
  | _ =>
    have hlegal := hfrom.legal (by simp [hst])
    rw [hst] at hfrom
    simpa [statusCode, StatusComesFrom, hlegal] using hfrom

/-- Settles O37: the line asks for a DECODE of the string's length and codes, and DECODE succeeds exactly for a legal
length and symbols of the alphabet. -/
theorem codeStringValidity : Obligations.CodeStringValidity := by
  intro str hwf
  obtain ⟨hlength, -⟩ : str.length ≤ 255 ∧ str.all isAscii = true := by simpa [Asm.wf] using hwf
  have hreq : assemble (.decodeString str) =
      some (encode (.decode (BitVec.ofNat 8 str.length) (symbolsOfString str))) := assemble_eq_encode hwf rfl
  refine ⟨_, hreq, fun s => ⟨_, perform_eq_respond _ s, ?_⟩⟩
  rw [aloneResponse_of_decode (decode_encode _), execResult, decodeResult_status_ok_iff]
  have hlen : (BitVec.ofNat 8 str.length = 6 ∨ BitVec.ofNat 8 str.length = 8) ↔ str.length = 6 ∨ str.length = 8 := by
    simp [← BitVec.toNat_inj, toNat_ofNat_length hlength]
  rw [hlen]
  refine and_congr_right fun hstr => ?_
  rw [toNat_ofNat_length hlength, symbolsOfString_toList_take (by omega), List.forall_mem_map]

/-- Settles O38: a line in its ranges is well formed, so it stands for the encoding of its operation, and a value in the
range of its port is kept. -/
theorem assembledLinesSetTheirFields : Obligations.AssembledLinesSetTheirFields := by
  refine ⟨fun nib h₀ h₁ => ?_, fun code h₀ h₁ => ?_, fun ch hch => ?_, fun str hlength hascii => ?_,
    fun n codes h₀ h₁ hlength hcodes => ?_, fun a d ha₀ ha₁ hd₀ hd₁ => ?_,
    fun a d c ha₀ ha₁ hd₀ hd₁ hc₀ hc₁ => ?_⟩
  · have hwf : fitsUnsigned 4 nib = true := (fitsUnsigned_iff 4 nib).2 ⟨h₀, by omega⟩
    exact ⟨_, assemble_eq_encode (line := .symfor nib) hwf rfl, toNat_ofInt_of_fitsUnsigned hwf, rfl⟩
  · have hwf : fitsUnsigned 8 code = true := (fitsUnsigned_iff 8 code).2 ⟨h₀, by omega⟩
    exact ⟨_, assemble_eq_encode (line := .nibforCode code) hwf rfl, toNat_ofInt_of_fitsUnsigned hwf, rfl⟩
  · exact ⟨_, assemble_eq_encode (line := .nibforChar ch) (decide_eq_true hch) rfl, toNat_ofNat_char hch, rfl⟩
  · have hwf : (Asm.decodeString str).wf = true := by simpa [Asm.wf, isAscii, hlength] using hascii
    refine ⟨_, assemble_eq_encode hwf rfl, toNat_ofNat_length hlength, fun i hi => ?_, fun i hi => ?_, rfl⟩
    · exact symbolsOfString_getElem_toNat i hi (hascii _ (List.getElem_mem hi))
    · exact symbolsOfString_getElem_of_le i hi
  · have hn : fitsUnsigned 8 n = true := (fitsUnsigned_iff 8 n).2 ⟨h₀, by omega⟩
    have hfit : ∀ c ∈ codes, fitsUnsigned 8 c = true := fun c hc =>
      (fitsUnsigned_iff 8 c).2 ⟨(hcodes c hc).1, Int.lt_of_le_of_lt (hcodes c hc).2 (by decide)⟩
    have hwf : (Asm.decodeRaw n codes).wf = true := by simpa [Asm.wf, hn, hlength] using hfit
    refine ⟨_, assemble_eq_encode hwf rfl, toNat_ofInt_of_fitsUnsigned hn, fun i => ?_, rfl⟩
    have hi : i.val < codes.length := i.isLt.trans_eq hlength.symm
    rw [List.getElem?_eq_getElem hi]
    exact congrArg some (symbolsOfCodes_getElem_toNat i hi (hfit _ (List.getElem_mem hi))).symm
  · have ha := (fitsOperand_iff a).2 ⟨ha₀, ha₁⟩
    have hd := (fitsOperand_iff d).2 ⟨hd₀, hd₁⟩
    have hwf : (fitsOperand a && fitsOperand d) = true := by simp [ha, hd]
    exact ⟨_, _, assemble_eq_encode (line := .encode6 a d) hwf rfl,
      assemble_eq_encode (line := .encode6Alt a d) hwf rfl,
      toInt_ofInt_of_fitsOperand ha, toInt_ofInt_of_fitsOperand hd, rfl, rfl⟩
  · have ha := (fitsOperand_iff a).2 ⟨ha₀, ha₁⟩
    have hd := (fitsOperand_iff d).2 ⟨hd₀, hd₁⟩
    have hc := (fitsOperand_iff c).2 ⟨hc₀, hc₁⟩
    have hwf : (fitsOperand a && fitsOperand d && fitsOperand c) = true := by simp [ha, hd, hc]
    exact ⟨_, _, assemble_eq_encode (line := .encode8 a d c) hwf rfl,
      assemble_eq_encode (line := .encode8Alt a d c) hwf rfl,
      toInt_ofInt_of_fitsOperand ha, toInt_ofInt_of_fitsOperand hd, toInt_ofInt_of_fitsOperand hc, rfl, rfl⟩

/-- Settles O39: a line and its expansion stand for the same request, and only the two pseudo-instructions expand. -/
theorem pseudoInstructionsExpand : Obligations.PseudoInstructionsExpand := by
  refine ⟨fun a d c => ⟨?_, ?_, ?_, ?_⟩, fun line hline => ?_⟩
  · exact (assemble_expand (.encode a d none)).symm
  · exact (assemble_expand (.encode a d (some c))).symm
  · exact (assemble_expand (.encodeAlt a d none)).symm
  · exact (assemble_expand (.encodeAlt a d (some c))).symm
  · cases line with
    | encode a d c => exact absurd rfl (hline a d c).1
    | encodeAlt a d c => exact absurd rfl (hline a d c).2
    | _ => rfl

/-- Settles O40: a well-formed line stands for the encoding of an operation, which decodes and so has a legal command
word. -/
theorem wellFormedLinesAssembleToLegalRequests : Obligations.WellFormedLinesAssembleToLegalRequests := by
  intro line hwf
  obtain ⟨i, hi⟩ := exists_instrOf_expand line
  exact ⟨encode i, i, assemble_eq_encode hwf hi, decode_encode i, mem_legalCommands_of_decode (decode_encode i)⟩

/-- Settles O1: the seven words, read by the decoder. -/
theorem tableWordsDecode : Obligations.TableWordsDecode := by
  unfold Obligations.TableWordsDecode
  decide

/-- Settles O3: every field is read back from its place. -/
theorem requestBitsRoundTrip : Obligations.RequestBitsRoundTrip :=
  Request.ofBits_toBits

/-- Settles O51: the oldest request is served, and its response goes to its port. -/
theorem linesCarryTheDeliveredResponse : Obligations.LinesCarryTheDeliveredResponse := by
  intro s e rest hs hq
  refine ⟨_, (step_of_serve (nextAction_of_oldest hs hq)).trans (perform_eq_respond e.req _), ?_⟩
  simp [State.lines]

end Sys2Proof.Machine

/-! SUPPORT. What the lookups answer for a symbol, that they read its normal form only, and which symbols a response
carries (spec/40_lookup.md R57 to R60). -/

namespace Sys2Proof.Machine

/-! ### The lookups of a symbol (R57, R60) -/

theorem isLower_eq_false_iff (c : Symbol) : isLower c = false ↔ c.toNat < 0x61 ∨ 0x7A < c.toNat := by
  rw [Bool.eq_false_iff, ne_eq, isLower_iff]
  omega

theorem norm_of_lower {c : Symbol} (h : isLower c = true) : norm c = c - 0x20 := by
  simp [norm, h]

/-- R57: a lower-case code is at least 0x61, so folding it does not wrap around. -/
theorem norm_toNat_of_lower {c : Symbol} (h : isLower c = true) : (norm c).toNat + 0x20 = c.toNat := by
  obtain ⟨hlow, -⟩ := (isLower_iff c).1 h
  rw [norm_of_lower h]
  bv_omega

theorem nibforResult_of_spells {roms : Roms} {c : Symbol} {n : Nibble} (h : Spells roms c n) :
    nibforResult roms c = .ok { zeroResponse with nib := n } := by
  simp [nibforResult, (invRead_eq_valid_iff roms c n).2 h]

theorem nibforResult_of_not_inAlphabet {roms : Roms} {c : Symbol} (h : ¬ InAlphabet roms c) :
    nibforResult roms c = .error (.invalidSymbol 0 c) := by
  simp [nibforResult, (invRead_eq_invalid_iff roms c).2 h]

theorem exec_nibfor_of_spells {s : State} {c : Symbol} {n : Nibble} (h : Spells s.roms c n) :
    exec (.nibfor c) s = .next (s.respond { zeroResponse with nib := n }) := by
  rw [exec_eq_conclude, execResult, nibforResult_of_spells h]
  rfl

theorem exec_nibfor_of_not_inAlphabet {s : State} {c : Symbol} (h : ¬ InAlphabet s.roms c) :
    exec (.nibfor c) s = .next (s.raise (.invalidSymbol 0 c)) := by
  rw [exec_eq_conclude, execResult, nibforResult_of_not_inAlphabet h]
  rfl

theorem exec_symfor (nib : Nibble) (s : State) :
    exec (.symfor nib) s = .next (s.respond (symforResponse s.roms nib)) := rfl

/-! ### DECODE reads the entries of INV_ROM only, and they are alike for equal normal forms -/

theorem response_of_exec {i : Instr} {s t : State} {r : Response} (ht : exec i s = .next t)
    (hr : t.response = some r) : r = outcomeResponse (execResult s.roms i) := by
  obtain rfl : s.conclude (execResult s.roms i) = t := by simpa [exec_eq_conclude] using ht
  simpa [eq_comm] using hr

theorem invRead_congr (roms : Roms) {c c' : Symbol} (h : norm c' = norm c) : invRead roms c' = invRead roms c := by
  rw [invRead_eq, invRead_eq, invEntryOf, invEntryOf, h]

/-- Where it succeeds, a lookup of several symbols depends on their entries in INV_ROM alone. -/
theorem lookupFrom_eq_ok_congr {roms : Roms} {cs cs' : List Symbol}
    (h : cs'.map (invRead roms) = cs.map (invRead roms)) (i : Nat) (ns : List Nibble) :
    lookupFrom roms i cs' = .ok ns ↔ lookupFrom roms i cs = .ok ns := by
  have hentries : ∀ ds : List Symbol, lookupFrom roms i ds = .ok ns ↔
      (∀ e ∈ ds.map (invRead roms), e.valid = true) ∧ ns = (ds.map (invRead roms)).map InvEntry.nib := by
    simp [lookupFrom_eq_ok, Function.comp_def]
  rw [hentries, hentries, h]

theorem decodeResult_status_of_lookup_error {roms : Roms} {len : BitVec 8} {isym : Symbols} {e : ErrorInfo}
    (hlen : len = 6 ∨ len = 8) (hlookup : lookupFrom roms 0 (isym.toList.take len.toNat) = .error e) :
    (outcomeResponse (decodeResult roms len isym)).status = .invalidSymbol := by
  obtain ⟨_, c, _, -, -, -, rfl⟩ := (lookupFrom_eq_error _ _ _ _).1 hlookup
  rw [decodeResult_of_lookup_error hlen hlookup]
  rfl

/-- Code strings with the same entries in INV_ROM get the same answer, or each an INVALID_SYMBOL of its own. -/
theorem decodeResult_of_same_entries {roms : Roms} (len : BitVec 8) {isym isym' : Symbols}
    (h : isym'.map (invRead roms) = isym.map (invRead roms)) :
    decodeResult roms len isym' = decodeResult roms len isym ∨
      ((outcomeResponse (decodeResult roms len isym')).status = .invalidSymbol ∧
        (outcomeResponse (decodeResult roms len isym)).status = .invalidSymbol) := by
  by_cases hlen : len = 6 ∨ len = 8
  · have hread : (isym'.toList.take len.toNat).map (invRead roms) = (isym.toList.take len.toNat).map (invRead roms) := by
      rw [List.map_take, List.map_take, ← Vector.toList_map, ← Vector.toList_map, h]
    have hok := lookupFrom_eq_ok_congr hread 0
    cases hlookup : lookupFrom roms 0 (isym.toList.take len.toNat) with
    | ok ns =>
      left
      rw [decodeResult_of_lookup_ok hlen ((hok ns).2 hlookup), decodeResult_of_lookup_ok hlen hlookup]
    | error e =>
      cases hlookup' : lookupFrom roms 0 (isym'.toList.take len.toNat) with
      | ok ns => cases hlookup.symm.trans ((hok ns).1 hlookup')
      | error e' =>
        exact .inr ⟨decodeResult_status_of_lookup_error hlen hlookup', decodeResult_status_of_lookup_error hlen hlookup⟩
  · rw [decodeResult_of_length hlen, decodeResult_of_length hlen]
    exact .inl rfl

/-! ### The symbols a response carries (R58) -/

/-- R58: each valid output symbol is an entry of SYM_ROM. -/
def OutputsStored (roms : Roms) (r : Response) : Prop :=
  ∀ k : Fin 8, k.val < r.olen.toNat → ∃ n : Nibble, r.osym[k] = symRead roms n

theorem outputsStored_of_no_symbols {roms : Roms} {r : Response} (h : r.olen = 0) : OutputsStored roms r := by
  intro k hk
  simp [h] at hk

theorem outputsStored_errorResponse (roms : Roms) (e : ErrorInfo) : OutputsStored roms (errorResponse e) := by
  cases e <;> exact outputsStored_of_no_symbols rfl

theorem outputsStored_symforResponse (roms : Roms) (nib : Nibble) :
    OutputsStored roms (symforResponse roms nib) := by
  intro k hk
  obtain rfl : k = 0 := Fin.ext (Nat.lt_one_iff.1 hk)
  exact ⟨nib, rfl⟩

theorem outputsStored_emit (roms : Roms) (ns : List Nibble) : OutputsStored roms (emit roms ns) := by
  intro k hk
  have hlt : k.val < ns.length := hk.trans_le (Nat.mod_le _ _)
  refine ⟨ns[k.val], ?_⟩
  rw [emit_osym_getElem, List.getD_eq_getElem _ _ (by simpa using hlt), List.getElem_map]

theorem outputsStored_encode6Result (roms : Roms) (alt : Bool) (a d : Operand) :
    OutputsStored roms (outcomeResponse (encode6Result roms alt a d)) := by
  obtain h | ⟨field, value, h⟩ := encode6Result_cases roms alt a d <;> rw [h]
  · exact outputsStored_emit roms _
  · exact outputsStored_errorResponse roms _

theorem outputsStored_encode8Result (roms : Roms) (alt : Bool) (a d c : Operand) :
    OutputsStored roms (outcomeResponse (encode8Result roms alt a d c)) := by
  obtain h | ⟨field, value, h⟩ := encode8Result_cases roms alt a d c <;> rw [h]
  · exact outputsStored_emit roms _
  · exact outputsStored_errorResponse roms _

theorem outputsStored_nibforResult (roms : Roms) (sym : Symbol) :
    OutputsStored roms (outcomeResponse (nibforResult roms sym)) := by
  obtain ⟨n, h⟩ | h := nibforResult_cases roms sym <;> rw [h]
  · exact outputsStored_of_no_symbols rfl
  · exact outputsStored_errorResponse roms _

theorem outputsStored_decodeResult (roms : Roms) (len : BitVec 8) (isym : Symbols) :
    OutputsStored roms (outcomeResponse (decodeResult roms len isym)) := by
  obtain ⟨n, h | h⟩ | h | ⟨index, char, h⟩ := decodeResult_cases roms len isym <;> rw [h]
  · exact outputsStored_of_no_symbols rfl
  · exact outputsStored_of_no_symbols rfl
  · exact outputsStored_errorResponse roms _
  · exact outputsStored_errorResponse roms _

theorem outputsStored_execResult (roms : Roms) (i : Instr) :
    OutputsStored roms (outcomeResponse (execResult roms i)) := by
  cases i with
  | symfor nib => exact outputsStored_symforResponse roms nib
  | nibfor sym => exact outputsStored_nibforResult roms sym
  | decode len isym => exact outputsStored_decodeResult roms len isym
  | encode6 a d => exact outputsStored_encode6Result roms false a d
  | encode6Alt a d => exact outputsStored_encode6Result roms true a d
  | encode8 a d c => exact outputsStored_encode8Result roms false a d c
  | encode8Alt a d c => exact outputsStored_encode8Result roms true a d c

theorem outputsStored_aloneResponse (roms : Roms) (req : Request) :
    OutputsStored roms (aloneResponse roms req) := by
  by_cases hlegal : req.cmd ∈ legalCommands
  · obtain ⟨i, hi, -⟩ := exists_decode_eq_ok hlegal
    rw [aloneResponse_of_decode hi]
    exact outputsStored_execResult roms i
  · rw [aloneResponse_of_illegal hlegal]
    exact outputsStored_errorResponse roms _

/-- R6: no stored symbol is a lower-case letter. -/
theorem symRead_not_lower (roms : Roms) (n : Nibble) :
    (symRead roms n).toNat < 0x61 ∨ 0x7A < (symRead roms n).toNat :=
  (isLower_eq_false_iff _).1 (roms.symRom_not_lower n.toNat n.isLt)

end Sys2Proof.Machine

/-! SUPPORT. The statements about the lookups and the symbols of a response (spec/40_lookup.md). -/

namespace Sys2Proof.Machine

/-- Settles O12: the symbol's entry in INV_ROM is valid with the nibble it spells. -/
theorem nibforAnswersTheNibble : Obligations.NibforAnswersTheNibble :=
  fun _ _ _ hcmd hspells => ⟨decode_nibfor hcmd, exec_nibfor_of_spells hspells⟩

/-- Settles O13: a symbol that spells no nibble has no valid entry in INV_ROM, and the error records it as presented. -/
theorem nibforRejectsOtherSymbols : Obligations.NibforRejectsOtherSymbols :=
  fun _ _ hnone => exec_nibfor_of_not_inAlphabet hnone

/-- Settles O14: SYMFOR answers the stored symbol of its nibble, which spells that nibble. -/
theorem nibforUndoesSymfor : Obligations.NibforUndoesSymfor := by
  intro i s t r ht hr
  obtain rfl : s.respond (symforResponse s.roms i) = t := by simpa [exec_symfor] using ht
  obtain rfl : symforResponse s.roms i = r := by simpa using hr
  exact exec_nibfor_of_spells (spells_symRead s.roms i)

/-- Settles O21: symbols with the same normal form have the same entry in INV_ROM, and DECODE reads nothing else of
them but the code an error records. -/
theorem decodeIgnoresCase : Obligations.DecodeIgnoresCase := by
  intro len isym isym' s t t' hnorm ht ht' r r' hr hr'
  obtain rfl := response_of_exec ht hr
  obtain rfl := response_of_exec ht' hr'
  have hread : isym'.map (invRead s.roms) = isym.map (invRead s.roms) := by
    ext1 i hi
    simpa using invRead_congr s.roms (hnorm ⟨i, hi⟩)
  obtain hsame | ⟨hst', hst⟩ := decodeResult_of_same_entries len hread
  · simp [execResult, hsame]
  · simp [execResult, hst, hst']

/-- Settles O34: each operation that answers symbols takes them from SYM_ROM, which holds no lower-case letter. -/
theorem outputSymbolsAreStoredEntries : Obligations.OutputSymbolsAreStoredEntries := by
  intro req s t r k ht hr hk
  obtain rfl := response_of_perform ht hr
  obtain ⟨n, hn⟩ := outputsStored_aloneResponse s.roms req k hk
  exact ⟨n, hn, hn ▸ symRead_not_lower s.roms n⟩

/-- Settles O7: within the interval the code is lower-case and folds, outside it is not and stays. -/
theorem normFoldsLowerCaseOnly : Obligations.NormFoldsLowerCaseOnly := fun c =>
  ⟨fun hlow hhigh => norm_toNat_of_lower ((isLower_iff c).2 ⟨hlow, hhigh⟩),
    fun hout => norm_of_not_lower ((isLower_eq_false_iff c).2 hout)⟩

/-- Settles O11: the command word asks for SYMFOR, which answers the entry for every nibble. -/
theorem symforAnswersTheEntry : Obligations.SymforAnswersTheEntry :=
  fun req s hcmd => ⟨decode_symfor hcmd, exec_symfor req.nibIn s⟩

end Sys2Proof.Machine

/-! SUPPORT. What DECODE answers: the first symbol that spells no nibble, or the fields of the nibbles its symbols
spell, with the patch record bit by bit (spec/41_decode.md R62 to R69). -/

namespace Sys2Proof.Machine

/-! ### The bit map (R52, R64 to R67) -/

/-- The bits of a word stand in the order they are written in, so bit `i` is the one `i` places before the last. -/
theorem getElem_wordOf {w : Nat} (bits : Vector Bool w) (i : Nat) (h : i < w) :
    (wordOf bits)[i] = bits[w - 1 - i] := by
  have hrev : w - (i + 1) = w - 1 - i := by omega
  simp [wordOf, Fin.rev, hrev]

theorem wordOf_inj {w : Nat} {bits bits' : Vector Bool w} : wordOf bits = wordOf bits' ↔ bits = bits' := by
  refine ⟨fun h => Vector.ext fun i hi => ?_, congrArg wordOf⟩
  have hbit := BitVec.eq_of_getElem_eq_iff.1 h (w - 1 - i) (by omega)
  have hback : w - 1 - (w - 1 - i) = i := by omega
  simpa [getElem_wordOf, hback] using hbit

theorem assembleAddr_eq_mapAddr (n : Slots) : assembleAddr n = mapAddr n := by
  ext i hi
  rw [mapAddr, getElem_wordOf, assembleAddr]
  simp only [BitVec.getElem_or, BitVec.getElem_shiftLeft, BitVec.getElem_setWidth, BitVec.getLsbD_and]
  interval_cases i <;> simp

/-- The form that the three bytes share: `a` below bit 3 of `b`, then `b` below bit 3 of `c`. -/
theorem packed_byte_eq_wordOf (a b c : Nibble) :
    ((a &&& 0x7).setWidth 8 <<< 4) ||| ((b &&& 0x8).setWidth 8 <<< 4) ||| (b &&& 0x7).setWidth 8 |||
        (c &&& 0x8).setWidth 8 =
      wordOf #v[b.getLsbD 3, a.getLsbD 2, a.getLsbD 1, a.getLsbD 0,
        c.getLsbD 3, b.getLsbD 2, b.getLsbD 1, b.getLsbD 0] := by
  ext i hi
  rw [getElem_wordOf]
  interval_cases i <;> simp

theorem data6_eq_mapData6 (n : Slots) : data6 n = mapData6 n := packed_byte_eq_wordOf n[1] n[0] n[5]

theorem data8_eq_mapData8 (n : Slots) : data8 n = mapData8 n := packed_byte_eq_wordOf n[1] n[0] n[7]

theorem comp8_eq_mapComp8 (n : Slots) : comp8 n = mapComp8 n := packed_byte_eq_wordOf n[7] n[6] n[5]

theorem masked_bit_three_eq_zero : ∀ x : Nibble, (x &&& 0x8 == 0) = !x.getLsbD 3 := by decide

theorem warnOf_eq_mapWarn (n : Slots) : warnOf n = mapWarn n := masked_bit_three_eq_zero n[2]

theorem mapAddr_bit_fifteen (n : Slots) : (mapAddr n).getLsbD 15 = true := by
  rw [BitVec.getLsbD_eq_getElem (by decide), mapAddr, getElem_wordOf]
  rfl

/-! ### The response by LEN (R64 to R67) -/

/-- Stages 3 and 4 of a code of a legal length. -/
def decodeFields (len : BitVec 8) (n : Slots) : Response :=
  if len = 6 then decodeFields6 n else decodeFields8 n

theorem decodeFields_six (n : Slots) :
    decodeFields 6 n = { zeroResponse with addr := mapAddr n, data := mapData6 n, warn := mapWarn n } := by
  rw [← assembleAddr_eq_mapAddr, ← data6_eq_mapData6, ← warnOf_eq_mapWarn]
  rfl

theorem decodeFields_eight (n : Slots) :
    decodeFields 8 n = { zeroResponse with
      addr := mapAddr n, data := mapData8 n, comp := mapComp8 n, compv := true, warn := mapWarn n } := by
  rw [← assembleAddr_eq_mapAddr, ← data8_eq_mapData8, ← comp8_eq_mapComp8, ← warnOf_eq_mapWarn]
  rfl

section
variable {len : BitVec 8} (hlen : len = 6 ∨ len = 8)
include hlen

theorem decodeFields_addr (n : Slots) : (decodeFields len n).addr = mapAddr n := by
  obtain rfl | rfl := hlen
  · rw [decodeFields_six]
  · rw [decodeFields_eight]

theorem decodeFields_warn (n : Slots) : (decodeFields len n).warn = mapWarn n := by
  obtain rfl | rfl := hlen
  · rw [decodeFields_six]
  · rw [decodeFields_eight]

/-- R48: the stages after the lookup read no slot at or above LEN. -/
theorem decodeFields_congr {n n' : Slots} (h : ∀ i : Fin 8, i.val < len.toNat → n[i] = n'[i]) :
    decodeFields len n = decodeFields len n' := by
  obtain rfl | rfl := hlen
  · have hbelow (i : Nat) (hi : i < 6) : n[i] = n'[i] := h ⟨i, by omega⟩ hi
    rw [decodeFields_six, decodeFields_six]
    simp [mapAddr, mapData6, mapWarn, hbelow]
  · rw [Vector.ext fun i hi => h ⟨i, hi⟩ hi]

end

/-! ### The symbols below LEN (R63) -/

section
variable {roms : Roms} {isym : Symbols} {len : Nat}

theorem mem_take_iff_exists_slot {c : Symbol} :
    c ∈ isym.toList.take len ↔ ∃ i : Fin 8, i.val < len ∧ isym[i] = c := by
  simp only [List.mem_take_iff_getElem, Vector.length_toList, Vector.getElem_toList, lt_min_iff]
  constructor
  · rintro ⟨i, ⟨hlen, hi⟩, hc⟩
    exact ⟨⟨i, hi⟩, hlen, hc⟩
  · rintro ⟨i, hlen, hc⟩
    exact ⟨i, ⟨hlen, i.isLt⟩, hc⟩

/-- The first symbol that spells no nibble is reported with its slot and its code as presented. -/
theorem lookupFrom_of_first_bad {k : Fin 8} (hk : k.val < len)
    (hbefore : ∀ i : Fin 8, i < k → InAlphabet roms isym[i]) (hbad : ¬ InAlphabet roms isym[k]) :
    lookupFrom roms 0 (isym.toList.take len) = .error (.invalidSymbol (BitVec.ofNat 3 k.val) isym[k]) := by
  have hsplit : isym.toList.take len =
      isym.toList.take k.val ++ isym[k] :: (isym.toList.take len).drop (k.val + 1) := by
    have htake := List.take_append_drop k.val (isym.toList.take len)
    rw [List.drop_eq_getElem_cons (by simpa using hk), List.take_take, Nat.min_eq_left hk.le] at htake
    simpa using htake.symm
  refine (lookupFrom_eq_error _ _ _ _).2 ⟨_, _, _, hsplit, fun c hc => ?_, ?_, by simp⟩
  · obtain ⟨i, hi, rfl⟩ := mem_take_iff_exists_slot.1 hc
    exact (invRead_valid_iff _ _).2 (hbefore i hi)
  · simpa [← invRead_valid_iff] using hbad

/-- A code string whose symbols spell nibbles is looked up as those nibbles. -/
theorem lookupFrom_of_spells {n : Slots} (hspells : ∀ i : Fin 8, i.val < len → Spells roms isym[i] n[i]) :
    lookupFrom roms 0 (isym.toList.take len) = .ok (n.toList.take len) := by
  have hread (i : Fin 8) (hi : i.val < len) : invRead roms isym[i] = { valid := true, nib := n[i] } :=
    (invRead_eq_valid_iff roms _ _).2 (hspells i hi)
  refine (lookupFrom_eq_ok _ _ _ _).2 ⟨fun c hc => ?_, List.ext_getElem (by simp) fun i hi _ => ?_⟩
  · obtain ⟨i, hi, rfl⟩ := mem_take_iff_exists_slot.1 hc
    rw [hread i hi]
  · obtain ⟨hlen, h8⟩ : i < len ∧ i < 8 := by simpa using hi
    simpa using (congrArg InvEntry.nib (hread ⟨i, h8⟩ hlen)).symm

end

theorem slotsOf_getElem (ns : List Nibble) (i : Fin 8) : (slotsOf ns)[i] = ns.getD i.val 0 := by
  fin_cases i <;> rfl

section
variable {roms : Roms} {len : BitVec 8} {isym : Symbols}

theorem decodeResult_of_first_bad {k : Fin 8} (hlen : len = 6 ∨ len = 8) (hk : k.val < len.toNat)
    (hbefore : ∀ i : Fin 8, i < k → InAlphabet roms isym[i]) (hbad : ¬ InAlphabet roms isym[k]) :
    decodeResult roms len isym = .error (.invalidSymbol (BitVec.ofNat 3 k.val) isym[k]) :=
  decodeResult_of_lookup_error hlen (lookupFrom_of_first_bad hk hbefore hbad)

theorem decodeResult_of_spells {n : Slots} (hlen : len = 6 ∨ len = 8)
    (hspells : ∀ i : Fin 8, i.val < len.toNat → Spells roms isym[i] n[i]) :
    decodeResult roms len isym = .ok (decodeFields len n) := by
  have hslots (i : Fin 8) (hi : i.val < len.toNat) : (slotsOf (n.toList.take len.toNat))[i] = n[i] := by
    rw [slotsOf_getElem]
    simp [List.getD_eq_getElem?_getD, List.getElem?_take_of_lt hi]
  rw [decodeResult_of_lookup_ok hlen (lookupFrom_of_spells hspells), ← decodeFields_congr hlen hslots]
  simp [decodeFields]

/-- A DECODE that succeeds answers the fields of the nibbles that its symbols spell. -/
theorem exists_spells_of_status_ok (h : (outcomeResponse (decodeResult roms len isym)).status = .ok) :
    (len = 6 ∨ len = 8) ∧ ∃ n : Slots, (∀ i : Fin 8, i.val < len.toNat → Spells roms isym[i] n[i]) ∧
      decodeResult roms len isym = .ok (decodeFields len n) := by
  obtain ⟨hlen, hin⟩ := (decodeResult_status_ok_iff _ _ _).1 h
  have hslot (i : Fin 8) : ∃ m : Nibble, i.val < len.toNat → Spells roms isym[i] m := by
    by_cases hi : i.val < len.toNat
    · obtain ⟨m, hm⟩ := hin _ (mem_take_iff_exists_slot.2 ⟨i, hi, rfl⟩)
      exact ⟨m, fun _ => hm⟩
    · exact ⟨0, fun hlt => absurd hlt hi⟩
  choose nibble hnibble using hslot
  have hspells (i : Fin 8) (hi : i.val < len.toNat) : Spells roms isym[i] (Vector.ofFn nibble)[i] := by
    simpa using hnibble i hi
  exact ⟨hlen, _, hspells, decodeResult_of_spells hlen hspells⟩

theorem exec_decode_of_spells {s : State} {n : Slots} (hlen : len = 6 ∨ len = 8)
    (hspells : ∀ i : Fin 8, i.val < len.toNat → Spells s.roms isym[i] n[i]) :
    exec (.decode len isym) s = .next (s.respond (decodeFields len n)) := by
  rw [exec_eq_conclude, execResult, decodeResult_of_spells hlen hspells]
  rfl

/-- R62: a legal LEN gets past the length check, to a success or an INVALID_SYMBOL. -/
theorem decodeResult_status_invalidLength_iff :
    (outcomeResponse (decodeResult roms len isym)).status = .invalidLength ↔ ¬ (len = 6 ∨ len = 8) := by
  by_cases hlen : len = 6 ∨ len = 8
  · refine iff_of_false (fun hst => ?_) (not_not.2 hlen)
    cases hlookup : lookupFrom roms 0 (isym.toList.take len.toNat) with
    | ok ns =>
      rw [decodeResult_of_lookup_ok hlen hlookup] at hst
      split at hst <;> cases hst
    | error e => cases hst.symm.trans (decodeResult_status_of_lookup_error hlen hlookup)
  · rw [decodeResult_of_length hlen]
    exact iff_of_true rfl hlen

end

/-! ### WARN (R67) -/

/-- R87: an error sets no result. -/
theorem status_ok_of_warn {r : Response} (h : wellShaped r = true) (hwarn : r.warn = true) : r.status = .ok := by
  by_contra hst
  simp [wellShaped, noResult, hwarn, hst] at h

theorem nibforResult_warn (roms : Roms) (sym : Symbol) : (outcomeResponse (nibforResult roms sym)).warn = false := by
  obtain ⟨n, h⟩ | h := nibforResult_cases roms sym <;> rw [h] <;> rfl

theorem encode6Result_warn (roms : Roms) (alt : Bool) (a d : Operand) :
    (outcomeResponse (encode6Result roms alt a d)).warn = false := by
  obtain h | ⟨field, value, h⟩ := encode6Result_cases roms alt a d <;> rw [h] <;> rfl

theorem encode8Result_warn (roms : Roms) (alt : Bool) (a d c : Operand) :
    (outcomeResponse (encode8Result roms alt a d c)).warn = false := by
  obtain h | ⟨field, value, h⟩ := encode8Result_cases roms alt a d c <;> rw [h] <;> rfl

/-- No operation but DECODE sets WARN. -/
theorem execResult_warn {i : Instr} (h : ∀ len isym, i ≠ .decode len isym) (roms : Roms) :
    (outcomeResponse (execResult roms i)).warn = false := by
  cases i with
  | symfor nib => rfl
  | nibfor sym => exact nibforResult_warn roms sym
  | decode len isym => exact absurd rfl (h len isym)
  | encode6 a d => exact encode6Result_warn roms false a d
  | encode6Alt a d => exact encode6Result_warn roms true a d
  | encode8 a d c => exact encode8Result_warn roms false a d c
  | encode8Alt a d c => exact encode8Result_warn roms true a d c

theorem aloneResponse_warn {req : Request} (h : req.cmd ≠ 0x02) (roms : Roms) :
    (aloneResponse roms req).warn = false := by
  by_cases hlegal : req.cmd ∈ legalCommands
  · obtain ⟨i, hi, hcmd⟩ := exists_decode_eq_ok hlegal
    rw [aloneResponse_of_decode hi]
    refine execResult_warn (fun len isym hdecode => h ?_) roms
    rw [← hcmd, hdecode]
    rfl
  · rw [aloneResponse_of_illegal hlegal]
    rfl

/-- A stored symbol has one nibble only, so the nibble that ISYM[2] spells is n[2]. -/
theorem decodeResult_warn_iff {roms : Roms} {len : BitVec 8} {isym : Symbols}
    (hst : (outcomeResponse (decodeResult roms len isym)).status = .ok) :
    (outcomeResponse (decodeResult roms len isym)).warn = true ↔
      ∃ n : Nibble, Spells roms isym[2] n ∧ n.getLsbD 3 = false := by
  obtain ⟨hlen, n, hspells, hres⟩ := exists_spells_of_status_ok hst
  have htwo : 2 < len.toNat := by obtain rfl | rfl := hlen <;> decide
  have hslot : Spells roms isym[2] n[2] := hspells 2 htwo
  rw [hres, outcomeResponse, decodeFields_warn hlen, mapWarn, Bool.not_eq_true']
  exact ⟨fun hbit => ⟨n[2], hslot, hbit⟩,
    fun ⟨m, hm, hbit⟩ => symRead_injective roms (hm.trans hslot.symm) ▸ hbit⟩

/-! ### When two codes give one patch record (R69) -/

theorem norm_eq_iff_of_spells {roms : Roms} {c c' : Symbol} {n n' : Nibble} (h : Spells roms c n)
    (h' : Spells roms c' n') : norm c = norm c' ↔ n = n' := by
  rw [← h, ← h']
  exact ⟨symRead_injective roms, congrArg _⟩

theorem nibble_eq_iff : ∀ x y : Nibble, x = y ↔
    x.getLsbD 3 = y.getLsbD 3 ∧ x.getLsbD 2 = y.getLsbD 2 ∧ x.getLsbD 1 = y.getLsbD 1 ∧ x.getLsbD 0 = y.getLsbD 0 := by
  decide

theorem masked_nibble_eq_iff : ∀ x y : Nibble, x &&& 0x7 = y &&& 0x7 ↔
    x.getLsbD 2 = y.getLsbD 2 ∧ x.getLsbD 1 = y.getLsbD 1 ∧ x.getLsbD 0 = y.getLsbD 0 := by
  decide

/-- R69 for 6 symbols: each slot bit but n[2][3] has one place in the record, and ADDR[15] is no slot bit. -/
theorem record6_eq_iff (n n' : Slots) :
    mapAddr n = mapAddr n' ∧ mapData6 n = mapData6 n' ↔
      (∀ i : Fin 8, i.val < 6 → i.val ≠ 2 → n[i] = n'[i]) ∧ n[2] &&& (0x7 : Nibble) = n'[2] &&& (0x7 : Nibble) := by
  have hslots : (∀ i : Fin 8, i.val < 6 → i.val ≠ 2 → n[i] = n'[i]) ↔
      n[0] = n'[0] ∧ n[1] = n'[1] ∧ n[3] = n'[3] ∧ n[4] = n'[4] ∧ n[5] = n'[5] := by
    simp [Fin.forall_fin_succ]
  rw [hslots, masked_nibble_eq_iff]
  simp only [mapAddr, mapData6, wordOf_inj, nibble_eq_iff, Vector.mk.injEq, Array.mk.injEq, List.cons.injEq,
    true_and, and_true]
  exact Iff.of_eq (by ac_rfl)

/-- R69 for 8 symbols: likewise. -/
theorem record8_eq_iff (n n' : Slots) :
    mapAddr n = mapAddr n' ∧ mapData8 n = mapData8 n' ∧ mapComp8 n = mapComp8 n' ↔
      (∀ i : Fin 8, i.val < 8 → i.val ≠ 2 → n[i] = n'[i]) ∧ n[2] &&& (0x7 : Nibble) = n'[2] &&& (0x7 : Nibble) := by
  have hslots : (∀ i : Fin 8, i.val < 8 → i.val ≠ 2 → n[i] = n'[i]) ↔
      n[0] = n'[0] ∧ n[1] = n'[1] ∧ n[3] = n'[3] ∧ n[4] = n'[4] ∧ n[5] = n'[5] ∧ n[6] = n'[6] ∧ n[7] = n'[7] := by
    simp [Fin.forall_fin_succ]
  rw [hslots, masked_nibble_eq_iff]
  simp only [mapAddr, mapData8, mapComp8, wordOf_inj, nibble_eq_iff, Vector.mk.injEq, Array.mk.injEq, List.cons.injEq,
    true_and, and_true]
  exact Iff.of_eq (by ac_rfl)

/-- The patch record of a response: ADDR, DATA and COMP (R69). -/
def SameRecord (r r' : Response) : Prop := r.addr = r'.addr ∧ r.data = r'.data ∧ r.comp = r'.comp

section
variable {len : BitVec 8} (hlen : len = 6 ∨ len = 8)
include hlen

theorem sameRecord_decodeFields_iff (n n' : Slots) :
    SameRecord (decodeFields len n) (decodeFields len n') ↔
      (∀ i : Fin 8, i.val < len.toNat → i.val ≠ 2 → n[i] = n'[i]) ∧
        n[2] &&& (0x7 : Nibble) = n'[2] &&& (0x7 : Nibble) := by
  obtain rfl | rfl := hlen
  · rw [decodeFields_six, decodeFields_six]
    refine Iff.trans ?_ (record6_eq_iff n n')
    simp [SameRecord]
  · rw [decodeFields_eight, decodeFields_eight]
    exact record8_eq_iff n n'

/-- Beside the patch record, WARN is the only field of a DECODE's success that depends on the code. -/
theorem decodeFields_eq_of_sameRecord {n n' : Slots} (h : SameRecord (decodeFields len n) (decodeFields len n')) :
    decodeFields len n = { decodeFields len n' with warn := (decodeFields len n).warn } := by
  obtain ⟨haddr, hdata, hcomp⟩ := h
  dsimp only
  rw [← haddr, ← hdata, ← hcomp]
  obtain rfl | rfl := hlen <;> rfl

end

end Sys2Proof.Machine

/-! SUPPORT. The statements about DECODE (spec/41_decode.md). -/

namespace Sys2Proof.Machine

/-- Settles O16: the lookup stops at the first symbol that is not in the alphabet. -/
theorem decodeRejectsTheFirstBadSymbol : Obligations.DecodeRejectsTheFirstBadSymbol := by
  intro len isym s k hlen hk hbefore hbad
  rw [exec_eq_conclude, execResult, decodeResult_of_first_bad hlen hk hbefore hbad]
  rfl

/-- Settles O17: DECODE answers the fields of the spelled nibbles, which are those of the bit map. -/
theorem decodeSixFollowsTheBitMap : Obligations.DecodeSixFollowsTheBitMap := by
  intro req s n hcmd hlen hspells
  refine ⟨hlen ▸ decode_decode hcmd, ?_⟩
  rw [exec_decode_of_spells (.inl rfl) hspells, decodeFields_six]
  rfl

/-- Settles O18: DECODE answers the fields of the spelled nibbles, which are those of the bit map. -/
theorem decodeEightFollowsTheBitMap : Obligations.DecodeEightFollowsTheBitMap := by
  intro req s n hcmd hlen hspells
  refine ⟨hlen ▸ decode_decode hcmd, ?_⟩
  rw [exec_decode_of_spells (.inr rfl) fun i _ => hspells i, decodeFields_eight]
  rfl

/-- Settles O19: only a DECODE that succeeds sets WARN, and it does so by the nibble of slot 2. -/
theorem warnExactlyWhenSlotTwoBitThreeUnset : Obligations.WarnExactlyWhenSlotTwoBitThreeUnset := by
  intro req s t r ht hr
  obtain rfl := response_of_perform ht hr
  by_cases hcmd : req.cmd = 0x02
  · have hok := status_ok_of_warn (wellShaped_aloneResponse s.roms req)
    rw [aloneResponse_of_decode (decode_decode hcmd)] at hok ⊢
    exact ⟨fun hwarn => ⟨hcmd, hok hwarn, (decodeResult_warn_iff (hok hwarn)).1 hwarn⟩,
      fun ⟨_, hst, hslot⟩ => (decodeResult_warn_iff hst).2 hslot⟩
  · rw [aloneResponse_warn hcmd]
    exact iff_of_false nofun fun h => hcmd h.1

/-- Settles O20: the bit map sets ADDR[15], and the other bounds are those of the ports' widths. -/
theorem decodedAddressInUpperHalf : Obligations.DecodedAddressInUpperHalf := by
  intro len isym s t r ht hr hst
  obtain rfl := response_of_exec ht hr
  obtain ⟨hlen, n, -, hres⟩ := exists_spells_of_status_ok hst
  rw [execResult, hres, outcomeResponse]
  have hbit : (decodeFields len n).addr.getLsbD 15 = true := by
    rw [decodeFields_addr hlen, mapAddr_bit_fifteen]
  have hmsb : (decodeFields len n).addr.msb = true := (BitVec.msb_eq_getLsbD_last _).trans hbit
  exact ⟨hbit, BitVec.le_toNat_of_msb_true hmsb, Nat.le_of_lt_succ (BitVec.isLt _),
    Nat.le_of_lt_succ (BitVec.isLt _), fun _ => Nat.le_of_lt_succ (BitVec.isLt _)⟩

/-- Settles O22: the record fixes each slot bit but n[2][3], and equal normal forms are equal nibbles. -/
theorem sameRecordOnlyUpToSlotTwoBitThree : Obligations.SameRecordOnlyUpToSlotTwoBitThree := by
  intro len isym isym' n n' s t t' r r' hlen hspells hspells' ht hr ht' hr'
  obtain rfl : decodeFields len n = r := by
    rw [response_of_exec ht hr, execResult, decodeResult_of_spells hlen hspells, outcomeResponse]
  obtain rfl : decodeFields len n' = r' := by
    rw [response_of_exec ht' hr', execResult, decodeResult_of_spells hlen hspells', outcomeResponse]
  refine ⟨(sameRecord_decodeFields_iff hlen n n').trans ?_, decodeFields_eq_of_sameRecord hlen⟩
  -- Lean reads the mask of `n[2]` in the statement as a cast of the number 7.
  rw [Nat.cast_ofNat]
  refine and_congr_left fun _ => forall₂_congr fun i hi => imp_congr_right fun _ => ?_
  exact (norm_eq_iff_of_spells (hspells i hi) (hspells' i hi)).symm

/-- Settles O15: the length check comes first, and no other check of any operation answers INVALID_LENGTH. -/
theorem decodeRejectsOtherLengths : Obligations.DecodeRejectsOtherLengths := by
  refine ⟨rfl, fun len isym s h6 h8 => ?_, fun req s t r ht hr hst => ?_⟩
  · rw [exec_eq_conclude, execResult, decodeResult_of_length (not_or.2 ⟨h6, h8⟩)]
    rfl
  · obtain rfl := response_of_perform ht hr
    have hcmd : req.cmd = 0x02 := by
      have hfrom := aloneResponse_status s.roms req
      rwa [hst] at hfrom
    rw [aloneResponse_of_decode (decode_decode hcmd)] at hst
    exact ⟨hcmd, not_or.1 (decodeResult_status_invalidLength_iff.1 hst)⟩

end Sys2Proof.Machine

/-! SUPPORT. What ENCODE6 and ENCODE8 answer: the first operand out of its interval, or the symbols of the slots of the
bit map; and the round trips between a patch record and its code (spec/42_encode.md R70 to R79). -/

namespace Sys2Proof.Machine

/-! ### The bit map (R53, R71, R74, R75) -/

/-- A word is written out by its own bits, the most significant first; so an equation between a word and one of a bit
map is one equation for each bit. -/
theorem wordOf_eq_iff {w : Nat} {bits : Vector Bool w} {x : BitVec w} :
    wordOf bits = x ↔ ∀ i : Fin w, bits[i] = x.getLsbD (w - 1 - i) := by
  constructor
  · rintro rfl i
    have hback : w - 1 - (w - 1 - i) = i := by omega
    rw [BitVec.getLsbD_eq_getElem (by omega), getElem_wordOf]
    simp [hback]
  · intro h
    ext i hi
    have hback : w - 1 - (w - 1 - i) = i := by omega
    rw [getElem_wordOf]
    simpa [hback, BitVec.getLsbD_eq_getElem hi] using h ⟨w - 1 - i, by omega⟩

/-- The formulas of R71 and R75 give each bit of each slot as the bit map has it. -/
theorem encodeSlots8_eq_mapSlots8 (alt : Bool) (a : Address) (d c : Byte) :
    encodeSlots8 alt a d c = (mapSlots8 alt a d c).toList := by
  simp only [encodeSlots8, slot0, slot1, slot2, slot3, slot4, slot5, mapSlots8, Vector.toList_mk, List.cons.injEq,
    and_true, eq_comm (b := wordOf _), wordOf_eq_iff, Fin.forall_fin_succ]
  cases alt <;> simp

/-- R74, R75: the 6-symbol layout is the first six slots of the 8-symbol one with `data` in the place of `comp`. -/
theorem encodeSlots6_eq_take (alt : Bool) (a : Address) (d : Byte) :
    encodeSlots6 alt a d = (encodeSlots8 alt a d d).take 6 := rfl

theorem mapSlots6_getElem (alt : Bool) (a : Address) (d : Byte) (i : Fin 6) :
    (mapSlots6 alt a d)[i] = (mapSlots8 alt a d d)[i] := by
  fin_cases i <;> rfl

/-- R72: A decides n[2][3] alone. -/
theorem mapSlots8_getElem_of_ne_two (alt alt' : Bool) (a : Address) (d c : Byte) (k : Fin 8) (hk : k.val ≠ 2) :
    (mapSlots8 alt a d c)[k] = (mapSlots8 alt' a d c)[k] := by
  have hset : mapSlots8 alt a d c = (mapSlots8 alt' a d c).set 2 (mapSlots8 alt a d c)[2] := rfl
  rw [hset]
  exact Vector.getElem_set_ne _ _ hk.symm

theorem mapSlots8_two_bit_three (alt : Bool) (a : Address) (d c : Byte) :
    (mapSlots8 alt a d c)[2].getLsbD 3 = !alt := by
  simp [mapSlots8, getElem_wordOf]

/-- R72: with A = 0 slot 2 holds the nibble it holds with A = 1, with bit 3 set. -/
theorem mapSlots8_two_default (a : Address) (d c : Byte) :
    (mapSlots8 false a d c)[2] = (mapSlots8 true a d c)[2] ||| (0x8 : Nibble) := by
  simp [mapSlots8, wordOf_eq_iff, Fin.forall_fin_succ, getElem_wordOf]

theorem slots_share_six_iff (n n' : Slots) : (∀ k : Fin 8, k.val < 6 → n[k] = n'[k]) ↔
    n[0] = n'[0] ∧ n[1] = n'[1] ∧ n[2] = n'[2] ∧ n[3] = n'[3] ∧ n[4] = n'[4] ∧ n[5] = n'[5] := by
  simp [Fin.forall_fin_succ]

/-- R75, R79: of the first six slots, only n[5] has a bit of `comp`, its bit 3. -/
theorem mapSlots8_share_six_iff (alt : Bool) (a : Address) (d c c' : Byte) :
    (∀ k : Fin 8, k.val < 6 → (mapSlots8 alt a d c)[k] = (mapSlots8 alt a d c')[k]) ↔
      c.getLsbD 3 = c'.getLsbD 3 := by
  rw [slots_share_six_iff]
  simp [mapSlots8, wordOf_inj]

/-! ### Each bit of a patch record comes back (R52, R53) -/

theorem mapAddr_mapSlots8 (alt : Bool) {a : Address} (h : a.getLsbD 15 = true) (d c : Byte) :
    mapAddr (mapSlots8 alt a d c) = a := by
  simp [mapAddr, mapSlots8, wordOf_eq_iff, Fin.forall_fin_succ, getElem_wordOf, h]

theorem mapData6_mapSlots8 (alt : Bool) (a : Address) (d : Byte) : mapData6 (mapSlots8 alt a d d) = d := by
  simp [mapData6, mapSlots8, wordOf_eq_iff, Fin.forall_fin_succ, getElem_wordOf]

theorem mapData8_mapSlots8 (alt : Bool) (a : Address) (d c : Byte) : mapData8 (mapSlots8 alt a d c) = d := by
  simp [mapData8, mapSlots8, wordOf_eq_iff, Fin.forall_fin_succ, getElem_wordOf]

theorem mapComp8_mapSlots8 (alt : Bool) (a : Address) (d c : Byte) : mapComp8 (mapSlots8 alt a d c) = c := by
  simp [mapComp8, mapSlots8, wordOf_eq_iff, Fin.forall_fin_succ, getElem_wordOf]

theorem mapWarn_mapSlots8 (alt : Bool) (a : Address) (d c : Byte) : mapWarn (mapSlots8 alt a d c) = alt := by
  rw [mapWarn, mapSlots8_two_bit_three, Bool.not_not]

/-! ### The range check (R70, R83, R86) -/

theorem inRange_iff (f : ErrField) (v : Operand) :
    inRange f v = true ↔ (fieldBounds f).1 ≤ v.toInt ∧ v.toInt ≤ (fieldBounds f).2 := by
  simp [inRange]

theorem inRange_eq_false_iff (f : ErrField) (v : Operand) :
    inRange f v = false ↔ v.toInt < (fieldBounds f).1 ∨ (fieldBounds f).2 < v.toInt := by
  rw [Bool.eq_false_iff, ne_eq, inRange_iff]
  omega

section
variable {a d : Operand}

theorem rangeCheck_of_address (ha : inRange .address a = false) (d : Operand) (c : Option Operand) :
    rangeCheck a d c = .error (.outOfRange .address a) := by
  simp [rangeCheck, ha]

theorem rangeCheck_of_data (ha : inRange .address a = true) (hd : inRange .data d = false) (c : Option Operand) :
    rangeCheck a d c = .error (.outOfRange .data d) := by
  simp [rangeCheck, ha, hd]

theorem rangeCheck_of_comp {c : Operand} (ha : inRange .address a = true) (hd : inRange .data d = true)
    (hc : inRange .comp c = false) : rangeCheck a d (some c) = .error (.outOfRange .comp c) := by
  simp [rangeCheck, ha, hd, hc]

end

/-! ### The four encode operations in one form -/

/-- The encode operation with a given A bit; C is set exactly when there is a comp operand (R45, R46). -/
def encodeInstr (alt : Bool) (a d : Operand) : Option Operand → Instr
  | none => if alt then .encode6Alt a d else .encode6 a d
  | some c => if alt then .encode8Alt a d c else .encode8 a d c

/-- The length of a code, as LEN has it: six symbols without `comp`, eight with it (R62). -/
def codeLength : Option Byte → BitVec 8
  | none => 6
  | some _ => 8

/-- The slots of a patch record's code; with no `comp`, those from slot 6 on are not part of it (R53). -/
def encodedSlots (alt : Bool) (address : Address) (data : Byte) (comp : Option Byte) : Slots :=
  mapSlots8 alt address data (comp.getD data)

/-- The response of an encode operation whose operands are in range. -/
def encodedResponse (roms : Roms) (alt : Bool) (address : Address) (data : Byte) (comp : Option Byte) : Response :=
  emit roms ((encodedSlots alt address data comp).toList.take (codeLength comp).toNat)

theorem codeLength_legal (comp : Option Byte) : codeLength comp = 6 ∨ codeLength comp = 8 := by
  cases comp
  · exact .inl rfl
  · exact .inr rfl

/-- A 6-symbol code has the six slots of R74. -/
theorem encodedResponse_none (roms : Roms) (alt : Bool) (address : Address) (data : Byte) :
    encodedResponse roms alt address data none = emit roms (encodeSlots6 alt address data) := by
  rw [encodeSlots6_eq_take, encodeSlots8_eq_mapSlots8]
  rfl

/-- An 8-symbol code has the eight slots of R75. -/
theorem encodedResponse_some (roms : Roms) (alt : Bool) (address : Address) (data comp : Byte) :
    encodedResponse roms alt address data (some comp) = emit roms (encodeSlots8 alt address data comp) := by
  rw [encodeSlots8_eq_mapSlots8]
  rfl

theorem addressOf_eq_setWidth (a : Operand) : addressOf a = a.setWidth 16 := by
  ext i hi
  simp [addressOf]

theorem byteOf_eq_setWidth (v : Operand) : byteOf v = v.setWidth 8 := by
  ext i hi
  simp [byteOf]

theorem encode6Result_eq (roms : Roms) (alt : Bool) (a d : Operand) :
    encode6Result roms alt a d =
      (rangeCheck a d none).map fun _ => encodedResponse roms alt (a.setWidth 16) (d.setWidth 8) none := by
  rw [encodedResponse_none, ← addressOf_eq_setWidth, ← byteOf_eq_setWidth, encode6Result]
  cases rangeCheck a d none <;> rfl

theorem encode8Result_eq (roms : Roms) (alt : Bool) (a d c : Operand) :
    encode8Result roms alt a d c = (rangeCheck a d (some c)).map fun _ =>
      encodedResponse roms alt (a.setWidth 16) (d.setWidth 8) (some (c.setWidth 8)) := by
  rw [encodedResponse_some, ← addressOf_eq_setWidth, ← byteOf_eq_setWidth, ← byteOf_eq_setWidth, encode8Result]
  cases rangeCheck a d (some c) <;> rfl

/-- What an encode operation answers: the error of the range check, or the symbols of its operands' slots. -/
theorem execResult_encodeInstr (roms : Roms) (alt : Bool) (a d : Operand) (c : Option Operand) :
    execResult roms (encodeInstr alt a d c) = (rangeCheck a d c).map fun _ =>
      encodedResponse roms alt (a.setWidth 16) (d.setWidth 8) (c.map (BitVec.setWidth 8)) := by
  cases c with
  | none => cases alt <;> exact encode6Result_eq ..
  | some c => cases alt <;> exact encode8Result_eq ..

section
variable {a d : Operand} {c : Option Operand}

theorem execResult_encodeInstr_of_ok (h : rangeCheck a d c = .ok ()) (roms : Roms) (alt : Bool) :
    execResult roms (encodeInstr alt a d c) =
      .ok (encodedResponse roms alt (a.setWidth 16) (d.setWidth 8) (c.map (BitVec.setWidth 8))) := by
  rw [execResult_encodeInstr, h]
  rfl

theorem execResult_encodeInstr_of_error {e : ErrorInfo} (h : rangeCheck a d c = .error e) (roms : Roms) (alt : Bool) :
    execResult roms (encodeInstr alt a d c) = .error e := by
  rw [execResult_encodeInstr, h]
  rfl

theorem exec_encodeInstr_of_ok (h : rangeCheck a d c = .ok ()) (alt : Bool) (s : State) :
    exec (encodeInstr alt a d c) s = .next (s.respond
      (encodedResponse s.roms alt (a.setWidth 16) (d.setWidth 8) (c.map (BitVec.setWidth 8)))) := by
  rw [exec_eq_conclude, execResult_encodeInstr_of_ok h]
  rfl

theorem exec_encodeInstr_of_error {e : ErrorInfo} (h : rangeCheck a d c = .error e) (alt : Bool) (s : State) :
    exec (encodeInstr alt a d c) s = .next (s.raise e) := by
  rw [exec_eq_conclude, execResult_encodeInstr_of_error h]
  rfl

/-- An encode operation that succeeds answers the code of its operands. -/
theorem response_of_encode_ok {alt : Bool} {s t : State} {r : Response} (ht : exec (encodeInstr alt a d c) s = .next t)
    (hr : t.response = some r) (hst : r.status = .ok) :
    r = encodedResponse s.roms alt (a.setWidth 16) (d.setWidth 8) (c.map (BitVec.setWidth 8)) := by
  obtain rfl := response_of_exec ht hr
  obtain h | ⟨field, value, h⟩ := rangeCheck_cases a d c
  · rw [execResult_encodeInstr_of_ok h, outcomeResponse]
  · rw [execResult_encodeInstr_of_error h] at hst
    cases hst

end

/-! ### The symbols of a code (R73) -/

section
variable (roms : Roms) (alt : Bool) (address : Address) (data : Byte) (comp : Option Byte)

theorem encodedResponse_olen : (encodedResponse roms alt address data comp).olen = (codeLength comp).setWidth 4 := by
  cases comp <;> rfl

theorem encodedResponse_osym_getElem (i : Fin 8) :
    (encodedResponse roms alt address data comp).osym[i] =
      if i.val < (codeLength comp).toNat then symRead roms (encodedSlots alt address data comp)[i] else 0 := by
  rw [encodedResponse, emit_osym_getElem]
  split
  case isTrue h => simp [List.getD_eq_getElem?_getD, List.getElem?_take_of_lt h]
  case isFalse h => simp [List.getD_eq_getElem?_getD, h]

theorem encodedResponse_osym_of_lt_six (i : Fin 8) (hi : i.val < 6) :
    (encodedResponse roms alt address data comp).osym[i] =
      symRead roms (encodedSlots alt address data comp)[i] := by
  have hlen : 6 ≤ (codeLength comp).toNat := by
    obtain h | h := codeLength_legal comp <;> rw [h] <;> decide
  rw [encodedResponse_osym_getElem, if_pos (hi.trans_le hlen)]

end

/-- R72: A changes the symbol of slot 2 at most. -/
theorem encodedResponse_osym_of_ne_two (roms : Roms) (alt alt' : Bool) (address : Address) (data : Byte)
    (comp : Option Byte) (k : Fin 8) (hk : k.val ≠ 2) :
    (encodedResponse roms alt address data comp).osym[k] = (encodedResponse roms alt' address data comp).osym[k] := by
  rw [encodedResponse_osym_getElem, encodedResponse_osym_getElem, encodedSlots, encodedSlots,
    mapSlots8_getElem_of_ne_two alt alt' _ _ _ k hk]

/-- A changes no field but OSYM. -/
theorem encodedResponse_with_osym (roms : Roms) (alt alt' : Bool) (address : Address) (data : Byte)
    (comp : Option Byte) :
    { encodedResponse roms alt' address data comp with osym := (encodedResponse roms alt address data comp).osym } =
      encodedResponse roms alt address data comp := by
  cases comp <;> rfl

/-! ### Round trips (R76 to R78) -/

/-- The response of DECODE to a code of the given patch record. -/
def recordResponse (address : Address) (data : Byte) (comp : Option Byte) (warn : Bool) : Response :=
  { zeroResponse with
    addr := address, data := data, comp := comp.getD 0, compv := comp.isSome, warn := warn }

/-- The comp byte of a response, where COMPV says that it is present (R43). -/
def presentComp (r : Response) : Option Byte := if r.compv then some r.comp else none

/-- R76, R77 slot by slot: each bit of the record is read from the slot it was written to, and WARN is A. -/
theorem decodeFields_encodedSlots (alt : Bool) {address : Address} (h : address.getLsbD 15 = true) (data : Byte)
    (comp : Option Byte) :
    decodeFields (codeLength comp) (encodedSlots alt address data comp) = recordResponse address data comp alt := by
  cases comp with
  | none =>
    rw [codeLength, encodedSlots, Option.getD_none, decodeFields_six, mapAddr_mapSlots8 alt h, mapData6_mapSlots8,
      mapWarn_mapSlots8]
    rfl
  | some comp =>
    rw [codeLength, encodedSlots, Option.getD_some, decodeFields_eight, mapAddr_mapSlots8 alt h, mapData8_mapSlots8,
      mapComp8_mapSlots8, mapWarn_mapSlots8]
    rfl

theorem bit_fifteen_iff (address : Address) : address.getLsbD 15 = true ↔ 0x8000 ≤ address.toNat := by
  rw [← BitVec.msb_eq_getLsbD_last, BitVec.msb_eq_decide, decide_eq_true_eq]

/-- A field narrower than an operand port is presented there as a number that is not negative. -/
theorem toInt_setWidth_operand {w : Nat} (x : BitVec w) (h : w < 32) : (x.setWidth 32).toInt = x.toNat := by
  rw [← BitVec.setWidth'_eq h.le, BitVec.toInt_setWidth'_of_lt h]

theorem byte_operand_bounds (b : Byte) : 0 ≤ (b.setWidth 32).toInt ∧ (b.setWidth 32).toInt ≤ 0xFF := by
  rw [toInt_setWidth_operand b (by decide)]
  exact ⟨Int.natCast_nonneg _, Int.ofNat_le.2 (Nat.le_of_lt_succ b.isLt)⟩

section
variable {address : Address} (h : 0x8000 ≤ address.toNat) (data : Byte) (comp : Option Byte) (alt : Bool) (s : State)
include h

/-- A patch record's fields are operands in range. -/
theorem rangeCheck_of_record : rangeCheck (address.setWidth 32) (data.setWidth 32) (comp.map (BitVec.setWidth 32)) =
    .ok () := by
  refine (rangeCheck_eq_ok _ _ _).2
    ⟨(inRange_iff .address _).2 ?_, (inRange_iff .data _).2 (byte_operand_bounds data), fun v hv => ?_⟩
  · rw [toInt_setWidth_operand address (by decide)]
    exact ⟨Int.ofNat_le.2 h, Int.ofNat_le.2 (Nat.le_of_lt_succ address.isLt)⟩
  · obtain ⟨b, -, rfl⟩ := Option.map_eq_some_iff.1 hv
    exact (inRange_iff .comp _).2 (byte_operand_bounds b)

theorem exec_encodeInstr_of_record :
    exec (encodeInstr alt (address.setWidth 32) (data.setWidth 32) (comp.map (BitVec.setWidth 32))) s =
      .next (s.respond (encodedResponse s.roms alt address data comp)) := by
  rw [exec_encodeInstr_of_ok (rangeCheck_of_record h data comp)]
  cases comp <;> simp

/-- R76, R77: a stored symbol spells its nibble, so DECODE sees the slots that were emitted. -/
theorem exec_decode_encodedResponse :
    exec (.decode (codeLength comp) (encodedResponse s.roms alt address data comp).osym) s =
      .next (s.respond (recordResponse address data comp alt)) := by
  rw [← decodeFields_encodedSlots alt ((bit_fifteen_iff address).2 h) data comp]
  refine exec_decode_of_spells (codeLength_legal comp) fun i hi => ?_
  rw [encodedResponse_osym_getElem, if_pos hi]
  exact spells_symRead s.roms _

end

/-- The slots of the code of a decoded record (R78). -/
def recodedSlots (alt : Bool) (r : Response) : Slots := encodedSlots alt r.addr r.data (presentComp r)

/-- The response to re-encoding a decoded record (R78). -/
def recodedResponse (roms : Roms) (alt : Bool) (r : Response) : Response :=
  encodedResponse roms alt r.addr r.data (presentComp r)

theorem recodedSlots_two_bit_three (alt : Bool) (r : Response) : (recodedSlots alt r)[2].getLsbD 3 = !alt :=
  mapSlots8_two_bit_three ..

/-- A nibble is known by its bit 3 and its other bits. -/
theorem nibble_eq_of_masked : ∀ x y : Nibble, x &&& 0x7 = y &&& 0x7 → x.getLsbD 3 = y.getLsbD 3 → x = y := by
  decide

theorem nibble_or_eight_eq_self_iff : ∀ x : Nibble, x ||| 0x8 = x ↔ x.getLsbD 3 = true := by decide

theorem nibble_or_eight_masked : ∀ x : Nibble, (x ||| 0x8) &&& 0x7 = x &&& 0x7 ∧ (x ||| 0x8).getLsbD 3 = true := by
  decide

section
variable {len : BitVec 8} (hlen : len = 6 ∨ len = 8) (n : Slots)
include hlen

theorem codeLength_presentComp : codeLength (presentComp (decodeFields len n)) = len := by
  obtain rfl | rfl := hlen <;> rfl

theorem decodeFields_addr_upper_half : 0x8000 ≤ (decodeFields len n).addr.toNat := by
  rw [← bit_fifteen_iff, decodeFields_addr hlen, mapAddr_bit_fifteen]

theorem decodeFields_recodedSlots (alt : Bool) :
    decodeFields len (recodedSlots alt (decodeFields len n)) = { decodeFields len n with warn := alt } := by
  have hbit := (bit_fifteen_iff _).2 (decodeFields_addr_upper_half hlen n)
  have hback := decodeFields_encodedSlots alt hbit (decodeFields len n).data (presentComp (decodeFields len n))
  rw [codeLength_presentComp hlen] at hback
  rw [recodedSlots, hback]
  obtain rfl | rfl := hlen <;> rfl

/-- The slots of a decoded record decode to that record, so by R69 they are those of its code, but for n[2][3]. -/
theorem recodedSlots_decodeFields (alt : Bool) :
    (∀ i : Fin 8, i.val < len.toNat → i.val ≠ 2 → (recodedSlots alt (decodeFields len n))[i] = n[i]) ∧
      (recodedSlots alt (decodeFields len n))[2] &&& (0x7 : Nibble) = n[2] &&& (0x7 : Nibble) := by
  refine (sameRecord_decodeFields_iff hlen _ _).1 ?_
  rw [decodeFields_recodedSlots hlen]
  exact ⟨rfl, rfl, rfl⟩

theorem recodedSlots_two_of_warn {alt : Bool} (h : alt = !n[2].getLsbD 3) :
    (recodedSlots alt (decodeFields len n))[2] = n[2] := by
  refine nibble_eq_of_masked _ _ (recodedSlots_decodeFields hlen n alt).2 ?_
  rw [recodedSlots_two_bit_three, h, Bool.not_not]

theorem recodedSlots_two_default : (recodedSlots false (decodeFields len n))[2] = n[2] ||| (0x8 : Nibble) := by
  obtain ⟨hmasked, hbit⟩ := nibble_or_eight_masked n[2]
  refine nibble_eq_of_masked _ _ ((recodedSlots_decodeFields hlen n false).2.trans hmasked.symm) ?_
  rw [recodedSlots_two_bit_three, hbit, Bool.not_false]

theorem recodedResponse_olen (roms : Roms) (alt : Bool) :
    (recodedResponse roms alt (decodeFields len n)).olen.toNat = len.toNat := by
  rw [recodedResponse, encodedResponse_olen, codeLength_presentComp hlen]
  obtain rfl | rfl := hlen <;> rfl

theorem recodedResponse_osym_getElem (roms : Roms) (alt : Bool) (i : Fin 8) (hi : i.val < len.toNat) :
    (recodedResponse roms alt (decodeFields len n)).osym[i] =
      symRead roms (recodedSlots alt (decodeFields len n))[i] := by
  rw [recodedResponse, encodedResponse_osym_getElem, codeLength_presentComp hlen, if_pos hi, recodedSlots]

end

end Sys2Proof.Machine

/-! SUPPORT. The statements about ENCODE6 and ENCODE8 (spec/42_encode.md). -/

namespace Sys2Proof.Machine

/-- Settles O28: the record's operands are in range, each emitted symbol spells its slot, and the slots decode to the
record. -/
theorem decodeAfterEncodeSix : Obligations.DecodeAfterEncodeSix := by
  intro address data alt s h
  exact ⟨_, _, exec_encodeInstr_of_record h data none alt s, rfl, rfl, rfl,
    exec_decode_encodedResponse h data none alt (s.respond _)⟩

/-- Settles O29: as for six symbols, with the comp byte in slots 5 to 7. -/
theorem decodeAfterEncodeEight : Obligations.DecodeAfterEncodeEight := by
  intro address data comp alt s h
  exact ⟨_, _, exec_encodeInstr_of_record h data (some comp) alt s, rfl, rfl, rfl,
    exec_decode_encodedResponse h data (some comp) alt (s.respond _)⟩

/-- Settles O30: the slots of the decoded record are those of the code but for n[2][3], which is NOT A. -/
theorem reencodingGivesTheNormalForm : Obligations.ReencodingGivesTheNormalForm := by
  intro len isym n s t r hlen hspells ht hr alt
  obtain rfl : s.respond (decodeFields len n) = t := by simpa [exec_decode_of_spells hlen hspells] using ht
  obtain rfl : decodeFields len n = r := by simpa using hr
  have htwo : 2 < len.toNat := by obtain rfl | rfl := hlen <;> decide
  have hn2 : symRead s.roms n[2] = norm isym[2] := hspells 2 htwo
  have hosym (i : Fin 8) (hi : i.val < len.toNat) := recodedResponse_osym_getElem hlen n s.roms alt i hi
  refine ⟨(s.respond (decodeFields len n)).respond _, recodedResponse s.roms alt (decodeFields len n), ?_, rfl, rfl,
    recodedResponse_olen hlen n _ _, fun i hi hi2 => ?_, fun halt => ?_, fun halt => ?_⟩
  · have hencode := exec_encodeInstr_of_record (decodeFields_addr_upper_half hlen n) (decodeFields len n).data
      (presentComp (decodeFields len n)) alt (s.respond (decodeFields len n))
    obtain rfl | rfl := hlen <;> exact hencode
  · rw [hosym i hi, (recodedSlots_decodeFields hlen n alt).1 i hi hi2]
    exact hspells i hi
  · exact (hosym 2 htwo).trans ((congrArg _ (recodedSlots_two_of_warn hlen n halt)).trans hn2)
  · subst halt
    have hsym := (hosym 2 htwo).trans (congrArg _ (recodedSlots_two_default hlen n))
    refine ⟨hsym, ?_⟩
    rw [← hn2, ← nibble_or_eight_eq_self_iff]
    exact ⟨fun h => symRead_injective _ (hsym.symm.trans h), fun h => hsym.trans (congrArg _ h)⟩

/-- Settles O23: the range check passes, and the six slots of the bit map are emitted. -/
theorem encodeSixFollowsTheBitMap : Obligations.EncodeSixFollowsTheBitMap := by
  intro a d s ha₀ ha₁ hd₀ hd₁ alt
  have hrange : rangeCheck a d none = .ok () :=
    (rangeCheck_eq_ok a d none).2 ⟨(inRange_iff .address a).2 ⟨ha₀, ha₁⟩,
      (inRange_iff .data d).2 ⟨hd₀, hd₁⟩, nofun⟩
  refine ⟨_, fun i => ?_, rfl, rfl, exec_encodeInstr_of_ok hrange alt s⟩
  rw [mapSlots6_getElem]
  exact (encodedResponse_osym_getElem _ _ _ _ _ (i.castLE (by decide))).trans (if_pos i.isLt)

/-- Settles O24: the range check passes, and the eight slots of the bit map are emitted. -/
theorem encodeEightFollowsTheBitMap : Obligations.EncodeEightFollowsTheBitMap := by
  intro a d c s ha₀ ha₁ hd₀ hd₁ hc₀ hc₁ alt
  have hrange : rangeCheck a d (some c) = .ok () := by
    refine (rangeCheck_eq_ok a d (some c)).2
      ⟨(inRange_iff .address a).2 ⟨ha₀, ha₁⟩, (inRange_iff .data d).2 ⟨hd₀, hd₁⟩, ?_⟩
    simpa using (inRange_iff .comp c).2 ⟨hc₀, hc₁⟩
  refine ⟨_, fun i => ?_, exec_encodeInstr_of_ok hrange alt s⟩
  exact (encodedResponse_osym_getElem _ _ _ _ _ i).trans (if_pos i.isLt)

/-- Settles O25: the range check looks at address, data and comp in turn, and at comp only where there is one. -/
theorem encodeReportsTheFirstOperandOutOfRange : Obligations.EncodeReportsTheFirstOperandOutOfRange := by
  intro a d c s i hi
  obtain ⟨alt, c', rfl⟩ : ∃ alt c', i = encodeInstr alt a d c' := by
    obtain rfl | rfl | rfl | rfl := hi
    · exact ⟨false, none, rfl⟩
    · exact ⟨true, none, rfl⟩
    · exact ⟨false, some c, rfl⟩
    · exact ⟨true, some c, rfl⟩
  refine ⟨fun ha => ?_, fun ha₀ ha₁ hd => ?_, fun ha₀ ha₁ hd₀ hd₁ hc hcomp => ?_⟩
  · exact exec_encodeInstr_of_error (rangeCheck_of_address ((inRange_eq_false_iff .address a).2 ha) d c') alt s
  · have ha := (inRange_iff .address a).2 ⟨ha₀, ha₁⟩
    exact exec_encodeInstr_of_error (rangeCheck_of_data ha ((inRange_eq_false_iff .data d).2 hd) c') alt s
  · have ha := (inRange_iff .address a).2 ⟨ha₀, ha₁⟩
    have hd := (inRange_iff .data d).2 ⟨hd₀, hd₁⟩
    have herr := rangeCheck_of_comp ha hd ((inRange_eq_false_iff .comp c).2 hc)
    obtain h | h := hcomp <;> rw [h]
    · exact exec_encodeInstr_of_error herr false s
    · exact exec_encodeInstr_of_error herr true s

/-- Settles O26: the range check does not read A, and A decides n[2][3] alone. -/
theorem altChangesSlotTwoBitThreeOnly : Obligations.AltChangesSlotTwoBitThreeOnly := by
  intro a d c s t t' i i' r r' hi ht hr ht' hr'
  obtain ⟨c', rfl, rfl⟩ : ∃ c', i = encodeInstr false a d c' ∧ i' = encodeInstr true a d c' := by
    obtain ⟨rfl, rfl⟩ | ⟨rfl, rfl⟩ := hi
    · exact ⟨none, rfl, rfl⟩
    · exact ⟨some c, rfl, rfl⟩
  obtain rfl := response_of_exec ht hr
  obtain rfl := response_of_exec ht' hr'
  obtain hrange | ⟨field, value, hrange⟩ := rangeCheck_cases a d c'
  · rw [execResult_encodeInstr_of_ok hrange, execResult_encodeInstr_of_ok hrange, outcomeResponse, outcomeResponse]
    have hslot (alt : Bool) := encodedResponse_osym_of_lt_six s.roms alt (a.setWidth 16) (d.setWidth 8)
      (c'.map (BitVec.setWidth 8)) 2 (by decide)
    exact ⟨encodedResponse_with_osym .., encodedResponse_osym_of_ne_two _ true false _ _ _, fun h => absurd rfl h,
      fun _ => ⟨(mapSlots8 true _ _ _)[2], mapSlots8_two_bit_three .., hslot true,
        (hslot false).trans (congrArg _ (mapSlots8_two_default ..))⟩⟩
  · rw [execResult_encodeInstr_of_error hrange, execResult_encodeInstr_of_error hrange]
    exact ⟨rfl, fun _ _ => rfl, fun _ => rfl, nofun⟩

/-- Settles O27: two codes of one A bit and address share six symbols exactly when their slots agree there. -/
theorem layoutsShareSixSymbolsOnlyIfBitThreesAgree : Obligations.LayoutsShareSixSymbolsOnlyIfBitThreesAgree := by
  intro a d c s t t' r r' ht hr hst ht' hr' hst'
  obtain rfl := response_of_encode_ok (alt := false) (c := none) ht hr hst
  obtain rfl := response_of_encode_ok (alt := false) (c := some c) ht' hr' hst'
  refine Iff.trans (forall₂_congr fun k hk => ?_)
    ((mapSlots8_share_six_iff false (a.setWidth 16) (d.setWidth 8) (c.setWidth 8) (d.setWidth 8)).trans ?_)
  · rw [encodedResponse_osym_of_lt_six _ _ _ _ _ k hk, encodedResponse_osym_of_lt_six _ _ _ _ _ k hk]
    exact ⟨symRead_injective s.roms, congrArg _⟩
  · simp [eq_comm]

end Sys2Proof.Machine

/-! SUPPORT. What a second response leaves of the first, and the statements about exceptions (spec/60_exceptions.md). -/

namespace Sys2Proof.Machine

/-! ### A response leaves nothing for the next request (R80, R88) -/

@[simp] theorem State.respond_respond (s : State) (r r' : Response) : (s.respond r).respond r' = s.respond r' := rfl

theorem State.respond_restore (s : State) (r : Response) : { s.respond r with response := s.response } = s := rfl

theorem perform_respond (req : Request) (s : State) (r : Response) : perform req (s.respond r) = perform req s := by
  simp [perform_eq_respond]

theorem eq_respond_of_perform {req : Request} {s t : State} (ht : perform req s = .next t) :
    t = s.respond (aloneResponse s.roms req) := by
  simpa [perform_eq_respond, eq_comm] using ht

/-- Performing a request after another answers as if the other had not been, error or not. -/
theorem perform_after_perform {req : Request} {s t : State} (ht : perform req s = .next t) (next : Request) :
    perform next t = perform next s := by
  rw [eq_respond_of_perform ht, perform_respond]

/-! ### The statements -/

/-- Settles O4: no illegal CMD decodes, and the error it raises records no value. -/
theorem illegalCommandGetsIllegalOp : Obligations.IllegalCommandGetsIllegalOp :=
  ⟨rfl, fun _ s hillegal => perform_of_illegal hillegal s⟩

/-- Settles O36: the first request leaves a response only, which the next one neither reads nor keeps. -/
theorem noRequestLeavesATrace : Obligations.NoRequestLeavesATrace := by
  intro req next s t u u' ht hu hu'
  constructor
  · rw [eq_respond_of_perform ht, State.respond_restore]
  · have hdirect : perform next s = .next u := (perform_after_perform ht next).symm.trans hu
    rw [eq_respond_of_perform hdirect, eq_respond_of_perform hu']

/-- Settles O46: a step that passes has its state, and performing a request always answers. -/
theorem everyStepAnswersANextState : Obligations.EveryStepAnswersANextState := exists_step_eq_next

end Sys2Proof.Machine

/-! SUPPORT. The step of a reset, and the statement about it (spec/70_reset_and_hazards.md section 1). -/

namespace Sys2Proof.Machine

theorem nextAction_of_reset {s : State} {es : List Event} (h : s.schedule = .reset :: es) :
    s.nextAction = .pass { s with schedule := es }.begin.applyReset := by
  simp [State.nextAction, h]

/-- Settles O44: the step of a reset passes in the state `applyReset` makes. Its queue is empty, so nothing is owed, and
no response is valid in it, so nothing is delivered. -/
theorem resetDiscardsRequestsAndKeepsTables : Obligations.ResetDiscardsRequestsAndKeepsTables := by
  intro s es hs
  refine ⟨_, step_of_pass (nextAction_of_reset hs), State.applyReset_roms _, State.applyReset_inflight _,
    State.applyReset_response _, State.applyReset_schedule _, fun port => ⟨?_, ?_⟩⟩
  · exact owed_of_inflight_nil (State.applyReset_inflight _) port
  · exact deliveredTo_of_response_none (State.applyReset_response _) port

end Sys2Proof.Machine
